-- ==== Sys2Proof/Word.lean ====
section
/-! DEFINITION. The word types of the core and their plainest arithmetic (00_scope.md R6, R10, R11). -/

namespace Sys2Proof

/-- A register, a timer or a byte of memory: 8 bits, unsigned (R20, R32, R50). -/
abbrev Byte := BitVec 8

/-- The pc, the index register, a stack entry or an instruction word: 16 bits (R23, R27, R29, R70). -/
abbrev Word := BitVec 16

/-- The index of a general register, V0 to VF (R20). -/
abbrev Reg := Fin 16

/-- The flag register VF is register 15 (R21). -/
abbrev VF : Reg := 15

/-- `zext_16` of a byte (R11). -/
def zext16 (b : Byte) : Word := b.setWidth 16

end Sys2Proof
end

