-- ==== Sys2Proof/Config.lean ====
section
/-! DEFINITION. The construction arguments of the core (00_scope.md R7, R9; 10_state.md R42), the default font
(20_memory.md R56) and the free values: constants with no body, of which nothing can be proved. -/

namespace Sys2Proof

/-- QUIRK_SHIFT (R9, R142): does 8XY6 or 8XYE shift V[Y] (`legacy`) or V[X] (`modern`). -/
inductive QuirkShift where
  | legacy
  | modern
  deriving DecidableEq, Repr

/-- QUIRK_JUMP (R9, R131): does BNNN add V[0] (`original`) or V[X] (`superchip`). -/
inductive QuirkJump where
  | original
  | superchip
  deriving DecidableEq, Repr

/-- QUIRK_INDEX_INC (R9, R176): do FX55 and FX65 move I past the bytes they transfer. -/
inductive QuirkIndexInc where
  | yes
  | no
  deriving DecidableEq, Repr

/-- One glyph of the font: five rows, the top row first (R56). -/
abbrev Glyph := Vector Byte 5

/-- The font: 16 glyphs of 5 bytes, 80 bytes in all (R6, R56). -/
abbrev Font := Vector Glyph 16

/-- A rate in hertz or in clock units per second, as a fraction: R7 asks for a positive number, not a whole one. -/
structure Rate where
  num : Nat
  den : Nat
  deriving DecidableEq, Repr, Inhabited

/-- The rate is a positive number. -/
def Rate.positive (r : Rate) : Bool := decide (0 < r.num) && decide (0 < r.den)

/-- A rate that may be any positive number, from one that may be any pair. -/
def Rate.ofFree (r : Rate) : Rate := ⟨r.num + 1, r.den + 1⟩

/-- The configuration record of R42 with the rates of R7, fixed at construction and never written by an instruction
(R9). -/
structure Config where
  /-- QUIRK_SHIFT, default `modern`. -/
  quirkShift : QuirkShift
  /-- QUIRK_JUMP, default `original`. -/
  quirkJump : QuirkJump
  /-- QUIRK_INDEX_INC, default `no`. -/
  quirkIndexInc : QuirkIndexInc
  /-- TIMER_HZ, the rate of the timer tick, default 60; it matters only through TIMER_PERIOD (R7, R262). -/
  timerHz : Rate
  /-- TIMER_PERIOD, the tick period in clock units, positive, default 1/TIMER_HZ seconds (R7, R211). -/
  timerPeriod : Nat
  /-- CYCLE_HZ, positive; no rule reads it (R262). -/
  cycleHz : Rate
  /-- FONT, the glyph bytes installed at 0x050 (R56). -/
  font : Font
  deriving DecidableEq, Repr

/-- R7 and R42 ask that TIMER_HZ, TIMER_PERIOD and CYCLE_HZ are positive. -/
def Config.wf (c : Config) : Bool := c.timerHz.positive && decide (0 < c.timerPeriod) && c.cycleHz.positive

/-- FREE VALUE (log 2). How far the clock has moved at a cycle for which no input waits: the host may take any time. -/
opaque Config.freeElapsed : Nat → Nat

/-- FREE VALUE (log 3). The random byte of a cycle for which no input waits: any byte, with no law relating two
draws (R8). -/
opaque Config.freeRandom : Nat → Byte

/-- FREE VALUE (log 6). The clock units in a second, before `Rate.ofFree`: the unit is left to the host (R104). -/
opaque Config.openUnitsPerSecond : Rate

/-- FREE VALUE (log 6). Whether a period that is no whole number of clock units is rounded up or down. -/
opaque Config.openRoundsUp : Bool

/-- FREE VALUE (log 7). The CYCLE_HZ that `Config.default` takes, before `Rate.ofFree`: OPEN in the spec (R7). -/
opaque Config.openCycleHz : Rate

/-- 1/`hz` seconds in whole clock units, where a second has `units` of them (R7); at least one unit, since the period is
positive. -/
def Config.periodOf (units hz : Rate) (roundsUp : Bool) : Nat :=
  let n := units.num * hz.den
  let d := units.den * hz.num
  max 1 (if roundsUp then (n + d - 1) / d else n / d)

/-- The font table of R56, the spec's default for FONT, marked there as general knowledge (log 8). -/
def Config.defaultFont : Font :=
  #v[#v[0xF0, 0x90, 0x90, 0x90, 0xF0], #v[0x20, 0x60, 0x20, 0x20, 0x70],
     #v[0xF0, 0x10, 0xF0, 0x80, 0xF0], #v[0xF0, 0x10, 0xF0, 0x10, 0xF0],
     #v[0x90, 0x90, 0xF0, 0x10, 0x10], #v[0xF0, 0x80, 0xF0, 0x10, 0xF0],
     #v[0xF0, 0x80, 0xF0, 0x90, 0xF0], #v[0xF0, 0x10, 0x20, 0x40, 0x40],
     #v[0xF0, 0x90, 0xF0, 0x90, 0xF0], #v[0xF0, 0x90, 0xF0, 0x10, 0xF0],
     #v[0xF0, 0x90, 0xF0, 0x90, 0x90], #v[0xE0, 0x90, 0xE0, 0x90, 0xE0],
     #v[0xF0, 0x80, 0x80, 0x80, 0xF0], #v[0xE0, 0x90, 0x90, 0x90, 0xE0],
     #v[0xF0, 0x80, 0xF0, 0x80, 0xF0], #v[0xF0, 0x80, 0xF0, 0x80, 0x80]]

/-- The configuration for the timer rate `hz` with every other argument at its default: the quirks of R9, the period of
R7, the font of R56. -/
def Config.ofTimerHz (hz : Rate) : Config where
  quirkShift := .modern
  quirkJump := .original
  quirkIndexInc := .no
  timerHz := hz
  timerPeriod := Config.periodOf Config.openUnitsPerSecond.ofFree hz Config.openRoundsUp
  cycleHz := Config.openCycleHz.ofFree
  font := Config.defaultFont

/-- The default configuration: TIMER_HZ is 60 (R7). -/
def Config.default : Config := Config.ofTimerHz ⟨60, 1⟩

end Sys2Proof
end

