-- ==== Sys2Proof/Syntax.lean ====
section
/-! DEFINITION. The instruction set: one constructor per row of spec/opcode_table.json (30_encoding.md R76), in the
table's order. Operands: `x` and `y` are register indices; `nn` is the 8-bit immediate; `nnn` is the 12-bit address,
held zero-extended to 16 bits as it is written to pc or I (R73); `n` is the sprite height, a count. `WellFormed.lean`
says which `nnn` and `n` fit their fields. -/

namespace Sys2Proof

/-- The 34 instructions of R76; the name of a constructor follows the row's syntax line (R88). -/
inductive Instr where
  /-- 00E0 CLS -/
  | cls
  /-- 00EE RET -/
  | ret
  /-- 1NNN JP nnn -/
  | jp (nnn : Word)
  /-- 2NNN CALL nnn -/
  | call (nnn : Word)
  /-- 3XNN SE Vx, nn -/
  | seByte (x : Reg) (nn : Byte)
  /-- 4XNN SNE Vx, nn -/
  | sneByte (x : Reg) (nn : Byte)
  /-- 5XY0 SE Vx, Vy -/
  | seReg (x y : Reg)
  /-- 6XNN LD Vx, nn -/
  | ldByte (x : Reg) (nn : Byte)
  /-- 7XNN ADD Vx, nn -/
  | addByte (x : Reg) (nn : Byte)
  /-- 8XY0 LD Vx, Vy -/
  | ldReg (x y : Reg)
  /-- 8XY1 OR Vx, Vy -/
  | orReg (x y : Reg)
  /-- 8XY2 AND Vx, Vy -/
  | andReg (x y : Reg)
  /-- 8XY3 XOR Vx, Vy -/
  | xorReg (x y : Reg)
  /-- 8XY4 ADD Vx, Vy -/
  | addReg (x y : Reg)
  /-- 8XY5 SUB Vx, Vy -/
  | sub (x y : Reg)
  /-- 8XY6 SHR Vx, Vy -/
  | shr (x y : Reg)
  /-- 8XY7 SUBN Vx, Vy -/
  | subn (x y : Reg)
  /-- 8XYE SHL Vx, Vy -/
  | shl (x y : Reg)
  /-- 9XY0 SNE Vx, Vy -/
  | sneReg (x y : Reg)
  /-- ANNN LD I, nnn -/
  | ldIndex (nnn : Word)
  /-- BNNN JP V0, nnn -/
  | jpOffset (nnn : Word)
  /-- CXNN RND Vx, nn -/
  | rnd (x : Reg) (nn : Byte)
  /-- DXYN DRW Vx, Vy, n -/
  | drw (x y : Reg) (n : Nat)
  /-- EX9E SKP Vx -/
  | skp (x : Reg)
  /-- EXA1 SKNP Vx -/
  | sknp (x : Reg)
  /-- FX07 LD Vx, DT -/
  | ldFromDelay (x : Reg)
  /-- FX0A LD Vx, K -/
  | ldKey (x : Reg)
  /-- FX15 LD DT, Vx -/
  | ldDelay (x : Reg)
  /-- FX18 LD ST, Vx -/
  | ldSound (x : Reg)
  /-- FX1E ADD I, Vx -/
  | addIndex (x : Reg)
  /-- FX29 LD F, Vx -/
  | ldFont (x : Reg)
  /-- FX33 LD B, Vx -/
  | ldBcd (x : Reg)
  /-- FX55 LD [I], Vx -/
  | storeRegs (x : Reg)
  /-- FX65 LD Vx, [I] -/
  | loadRegs (x : Reg)
  deriving DecidableEq, Repr

end Sys2Proof
end

