-- ==== Sys2Proof/WellFormed.lean ====
section
/-! DEFINITION. Which instructions an encoding can hold: every operand fits its field (30_encoding.md R72, R73).
Register indices and byte immediates fit by their types; an address must fit 12 bits and a sprite height 4 bits. -/

namespace Sys2Proof

/-- An address operand fits the field NNN = w[11:0] (R72). -/
def fitsNNN (nnn : Word) : Bool := decide (nnn.toNat < 0x1000)

/-- A sprite height fits the field N = w[3:0] (R72). -/
def fitsN (n : Nat) : Bool := decide (n < 0x10)

/-- The operands of the instruction fit the fields of its encoding. -/
def Instr.wf : Instr → Bool
  | .jp nnn | .call nnn | .ldIndex nnn | .jpOffset nnn => fitsNNN nnn
  | .drw _ _ n => fitsN n
  | .cls | .ret => true
  | .seByte _ _ | .sneByte _ _ | .ldByte _ _ | .addByte _ _ | .rnd _ _ => true
  | .seReg _ _ | .sneReg _ _ | .ldReg _ _ | .orReg _ _ | .andReg _ _ | .xorReg _ _ => true
  | .addReg _ _ | .sub _ _ | .shr _ _ | .subn _ _ | .shl _ _ => true
  | .skp _ | .sknp _ | .ldFromDelay _ | .ldKey _ | .ldDelay _ | .ldSound _ => true
  | .addIndex _ | .ldFont _ | .ldBcd _ | .storeRegs _ | .loadRegs _ => true

end Sys2Proof
end

