-- ==== Sys2Proof/Decode.lean ====
section
/-! DEFINITION. Decoding, total on any bytes, and encoding (30_encoding.md). The decoder dispatches as R75 says, on the
top nibble and then on the low byte or nibble; `opcodeTable` is R76's table of match and mask, written apart from it,
and a statement says that the two agree. -/

namespace Sys2Proof

/-! ### The fields of an instruction word (R71, R72) -/

/-- The top nibble, w[15:12]: the family. -/
def family (w : Word) : BitVec 4 := w.extractLsb' 12 4

/-- X = w[11:8], a register index. -/
def fieldX (w : Word) : Reg := (w.extractLsb' 8 4).toFin

/-- Y = w[7:4], a register index. -/
def fieldY (w : Word) : Reg := (w.extractLsb' 4 4).toFin

/-- The low nibble w[3:0]: the count N of DXYN, and the sub-opcode of family 8. -/
def fieldN (w : Word) : BitVec 4 := w.extractLsb' 0 4

/-- NN = w[7:0]: the 8-bit immediate, and the sub-opcode of families 0, E and F. -/
def fieldNN (w : Word) : Byte := w.extractLsb' 0 8

/-- NNN = w[11:0], zero-extended to 16 bits (R73). -/
def fieldNNN (w : Word) : Word := (w.extractLsb' 0 12).setWidth 16

/-! ### Decoding (R75 to R86) -/

/-- Family 8: the low nibble selects the operation; 8, 9, A, B, C, D and F are illegal (R81). -/
def decodeFamily8 (w : Word) : Option Instr :=
  let x := fieldX w
  let y := fieldY w
  if fieldN w = 0x0#4 then some (.ldReg x y)
  else if fieldN w = 0x1#4 then some (.orReg x y)
  else if fieldN w = 0x2#4 then some (.andReg x y)
  else if fieldN w = 0x3#4 then some (.xorReg x y)
  else if fieldN w = 0x4#4 then some (.addReg x y)
  else if fieldN w = 0x5#4 then some (.sub x y)
  else if fieldN w = 0x6#4 then some (.shr x y)
  else if fieldN w = 0x7#4 then some (.subn x y)
  else if fieldN w = 0xE#4 then some (.shl x y)
  else none

/-- Family E: the low byte is 9E or A1 (R82). -/
def decodeFamilyE (w : Word) : Option Instr :=
  if fieldNN w = 0x9E#8 then some (.skp (fieldX w))
  else if fieldNN w = 0xA1#8 then some (.sknp (fieldX w))
  else none

/-- Family F: the low byte is one of nine values (R83). -/
def decodeFamilyF (w : Word) : Option Instr :=
  let x := fieldX w
  if fieldNN w = 0x07#8 then some (.ldFromDelay x)
  else if fieldNN w = 0x0A#8 then some (.ldKey x)
  else if fieldNN w = 0x15#8 then some (.ldDelay x)
  else if fieldNN w = 0x18#8 then some (.ldSound x)
  else if fieldNN w = 0x1E#8 then some (.addIndex x)
  else if fieldNN w = 0x29#8 then some (.ldFont x)
  else if fieldNN w = 0x33#8 then some (.ldBcd x)
  else if fieldNN w = 0x55#8 then some (.storeRegs x)
  else if fieldNN w = 0x65#8 then some (.loadRegs x)
  else none

/-- The instruction of a word, or none where the word is illegal (R77, R86). In family 0 all 16 bits are fixed; in
families 5 and 9 the low nibble must be 0 (R75, 90_conflicts.md C1). -/
def decodeWord (w : Word) : Option Instr :=
  let x := fieldX w
  let y := fieldY w
  let nn := fieldNN w
  let nnn := fieldNNN w
  if family w = 0x0#4 then
    if w = 0x00E0#16 then some .cls else if w = 0x00EE#16 then some .ret else none
  else if family w = 0x1#4 then some (.jp nnn)
  else if family w = 0x2#4 then some (.call nnn)
  else if family w = 0x3#4 then some (.seByte x nn)
  else if family w = 0x4#4 then some (.sneByte x nn)
  else if family w = 0x5#4 then if fieldN w = 0x0#4 then some (.seReg x y) else none
  else if family w = 0x6#4 then some (.ldByte x nn)
  else if family w = 0x7#4 then some (.addByte x nn)
  else if family w = 0x8#4 then decodeFamily8 w
  else if family w = 0x9#4 then if fieldN w = 0x0#4 then some (.sneReg x y) else none
  else if family w = 0xA#4 then some (.ldIndex nnn)
  else if family w = 0xB#4 then some (.jpOffset nnn)
  else if family w = 0xC#4 then some (.rnd x nn)
  else if family w = 0xD#4 then some (.drw x y (fieldN w).toNat)
  else if family w = 0xE#4 then decodeFamilyE w
  else decodeFamilyF w

/-- Why bytes do not decode. -/
inductive DecodeError where
  /-- The word matches no row of the opcode table (R86). -/
  | unimplementedOpcode (w : Word)
  /-- Fewer than the two bytes every instruction has (R70). -/
  | truncated
  deriving DecidableEq, Repr

/-- Two bytes as a word, the high byte at the lower address (R60). -/
def wordOfBytes (hi lo : Byte) : Word := hi ++ lo

/-- Decode the instruction at the head of a list of bytes, and give the rest. -/
def decode : List Byte → Except DecodeError (Instr × List Byte)
  | hi :: lo :: rest =>
    match decodeWord (wordOfBytes hi lo) with
    | some i => .ok (i, rest)
    | none => .error (.unimplementedOpcode (wordOfBytes hi lo))
  | [_] => .error .truncated
  | [] => .error .truncated

/-! ### Encoding -/

/-- The format NNN of R71: family, 12-bit address. -/
def formNNN (f : Nat) (nnn : Word) : Word := BitVec.ofNat 16 (f * 0x1000 + nnn.toNat % 0x1000)

/-- The format XNN of R71: family, register, low byte. -/
def formXNN (f : Nat) (x : Reg) (nn : Byte) : Word := BitVec.ofNat 16 (f * 0x1000 + x.val * 0x100 + nn.toNat)

/-- The format XYN of R71: family, two registers, low nibble. -/
def formXYN (f : Nat) (x y : Reg) (n : Nat) : Word :=
  BitVec.ofNat 16 (f * 0x1000 + x.val * 0x100 + y.val * 0x10 + n % 0x10)

/-- The word of an instruction, from R76's table; exact where the instruction is well formed. -/
def encode : Instr → Word
  | .cls => 0x00E0#16
  | .ret => 0x00EE#16
  | .jp nnn => formNNN 0x1 nnn
  | .call nnn => formNNN 0x2 nnn
  | .seByte x nn => formXNN 0x3 x nn
  | .sneByte x nn => formXNN 0x4 x nn
  | .seReg x y => formXYN 0x5 x y 0x0
  | .ldByte x nn => formXNN 0x6 x nn
  | .addByte x nn => formXNN 0x7 x nn
  | .ldReg x y => formXYN 0x8 x y 0x0
  | .orReg x y => formXYN 0x8 x y 0x1
  | .andReg x y => formXYN 0x8 x y 0x2
  | .xorReg x y => formXYN 0x8 x y 0x3
  | .addReg x y => formXYN 0x8 x y 0x4
  | .sub x y => formXYN 0x8 x y 0x5
  | .shr x y => formXYN 0x8 x y 0x6
  | .subn x y => formXYN 0x8 x y 0x7
  | .shl x y => formXYN 0x8 x y 0xE
  | .sneReg x y => formXYN 0x9 x y 0x0
  | .ldIndex nnn => formNNN 0xA nnn
  | .jpOffset nnn => formNNN 0xB nnn
  | .rnd x nn => formXNN 0xC x nn
  | .drw x y n => formXYN 0xD x y n
  | .skp x => formXNN 0xE x 0x9E
  | .sknp x => formXNN 0xE x 0xA1
  | .ldFromDelay x => formXNN 0xF x 0x07
  | .ldKey x => formXNN 0xF x 0x0A
  | .ldDelay x => formXNN 0xF x 0x15
  | .ldSound x => formXNN 0xF x 0x18
  | .addIndex x => formXNN 0xF x 0x1E
  | .ldFont x => formXNN 0xF x 0x29
  | .ldBcd x => formXNN 0xF x 0x33
  | .storeRegs x => formXNN 0xF x 0x55
  | .loadRegs x => formXNN 0xF x 0x65

/-- The high byte of a word, at the lower address (R60, R70). -/
def highByte (w : Word) : Byte := w.extractLsb' 8 8

/-- The low byte of a word, at the higher address (R60, R70). -/
def lowByte (w : Word) : Byte := w.extractLsb' 0 8

/-- The two bytes of an instruction as they lie in memory (R70). -/
def encodeBytes (i : Instr) : List Byte := [highByte (encode i), lowByte (encode i)]

/-! ### The opcode table (R76) -/

/-- A row of R76: a word is the row's instruction when `w &&& mask = pattern`. -/
structure OpcodeRow where
  pattern : Word
  mask : Word
  deriving DecidableEq, Repr

/-- The row of R76 an instruction belongs to. -/
def Instr.row : Instr → OpcodeRow
  | .cls => ⟨0x00E0, 0xFFFF⟩
  | .ret => ⟨0x00EE, 0xFFFF⟩
  | .jp _ => ⟨0x1000, 0xF000⟩
  | .call _ => ⟨0x2000, 0xF000⟩
  | .seByte _ _ => ⟨0x3000, 0xF000⟩
  | .sneByte _ _ => ⟨0x4000, 0xF000⟩
  | .seReg _ _ => ⟨0x5000, 0xF00F⟩
  | .ldByte _ _ => ⟨0x6000, 0xF000⟩
  | .addByte _ _ => ⟨0x7000, 0xF000⟩
  | .ldReg _ _ => ⟨0x8000, 0xF00F⟩
  | .orReg _ _ => ⟨0x8001, 0xF00F⟩
  | .andReg _ _ => ⟨0x8002, 0xF00F⟩
  | .xorReg _ _ => ⟨0x8003, 0xF00F⟩
  | .addReg _ _ => ⟨0x8004, 0xF00F⟩
  | .sub _ _ => ⟨0x8005, 0xF00F⟩
  | .shr _ _ => ⟨0x8006, 0xF00F⟩
  | .subn _ _ => ⟨0x8007, 0xF00F⟩
  | .shl _ _ => ⟨0x800E, 0xF00F⟩
  | .sneReg _ _ => ⟨0x9000, 0xF00F⟩
  | .ldIndex _ => ⟨0xA000, 0xF000⟩
  | .jpOffset _ => ⟨0xB000, 0xF000⟩
  | .rnd _ _ => ⟨0xC000, 0xF000⟩
  | .drw _ _ _ => ⟨0xD000, 0xF000⟩
  | .skp _ => ⟨0xE09E, 0xF0FF⟩
  | .sknp _ => ⟨0xE0A1, 0xF0FF⟩
  | .ldFromDelay _ => ⟨0xF007, 0xF0FF⟩
  | .ldKey _ => ⟨0xF00A, 0xF0FF⟩
  | .ldDelay _ => ⟨0xF015, 0xF0FF⟩
  | .ldSound _ => ⟨0xF018, 0xF0FF⟩
  | .addIndex _ => ⟨0xF01E, 0xF0FF⟩
  | .ldFont _ => ⟨0xF029, 0xF0FF⟩
  | .ldBcd _ => ⟨0xF033, 0xF0FF⟩
  | .storeRegs _ => ⟨0xF055, 0xF0FF⟩
  | .loadRegs _ => ⟨0xF065, 0xF0FF⟩

/-- Rows 1 to 9 of R76, families 0 to 7. -/
def opcodeRows0to7 : List OpcodeRow :=
  [⟨0x00E0, 0xFFFF⟩, ⟨0x00EE, 0xFFFF⟩, ⟨0x1000, 0xF000⟩, ⟨0x2000, 0xF000⟩, ⟨0x3000, 0xF000⟩, ⟨0x4000, 0xF000⟩,
   ⟨0x5000, 0xF00F⟩, ⟨0x6000, 0xF000⟩, ⟨0x7000, 0xF000⟩]

/-- Rows 10 to 18 of R76, family 8. -/
def opcodeRows8 : List OpcodeRow :=
  [⟨0x8000, 0xF00F⟩, ⟨0x8001, 0xF00F⟩, ⟨0x8002, 0xF00F⟩, ⟨0x8003, 0xF00F⟩, ⟨0x8004, 0xF00F⟩, ⟨0x8005, 0xF00F⟩,
   ⟨0x8006, 0xF00F⟩, ⟨0x8007, 0xF00F⟩, ⟨0x800E, 0xF00F⟩]

/-- Rows 19 to 25 of R76, families 9 to E. -/
def opcodeRows9toE : List OpcodeRow :=
  [⟨0x9000, 0xF00F⟩, ⟨0xA000, 0xF000⟩, ⟨0xB000, 0xF000⟩, ⟨0xC000, 0xF000⟩, ⟨0xD000, 0xF000⟩, ⟨0xE09E, 0xF0FF⟩,
   ⟨0xE0A1, 0xF0FF⟩]

/-- Rows 26 to 34 of R76, family F. -/
def opcodeRowsF : List OpcodeRow :=
  [⟨0xF007, 0xF0FF⟩, ⟨0xF00A, 0xF0FF⟩, ⟨0xF015, 0xF0FF⟩, ⟨0xF018, 0xF0FF⟩, ⟨0xF01E, 0xF0FF⟩, ⟨0xF029, 0xF0FF⟩,
   ⟨0xF033, 0xF0FF⟩, ⟨0xF055, 0xF0FF⟩, ⟨0xF065, 0xF0FF⟩]

/-- R76's table, in its order. -/
def opcodeTable : List OpcodeRow := opcodeRows0to7 ++ opcodeRows8 ++ opcodeRows9toE ++ opcodeRowsF

/-- The word `w` matches the row: `(w & mask) == match` (R76). -/
def OpcodeRow.matchesWord (r : OpcodeRow) (w : Word) : Bool := decide (w &&& r.mask = r.pattern)

/-! ### The host's reading of the decoder -/

/-- What the decoder reads from an instruction whose bits are `w`, numbered as the opcode table numbers them: bit 0 is
the least significant bit of the one word; bits from `nbits` up are 0. The bytes are laid out high byte first (R70). -/
def decodeTableWord (nbits w : Nat) : Option Instr :=
  let word : Word := BitVec.ofNat 16 (w % 2 ^ nbits)
  match decode [highByte word, lowByte word] with
  | .ok (i, _) => some i
  | .error _ => none

end Sys2Proof
end

