-- ==== Sys2Proof/Machine/State.lean ====
section
/-! DEFINITION. The state of the core (10_state.md R40), as plain data, and its reset value (R41). -/

namespace Sys2Proof.Machine

/-- Memory: the bytes that differ from what reset leaves there, by rising address (20_memory.md R50). What an unlisted
address reads as is `Memory.blank` in Ops.lean. -/
abbrev Memory := List Host.Cell

/-- The fault record of 10_state.md R38: the kind, with the instruction word (none for a fetch fault), the address `ia`
the instruction was fetched from and the first bad data address. Every one of them halts the core for good
(60_exceptions.md R232): the hardware stops where the model stops, so each is safe. -/
inductive Fault where
  /-- Raised by 2NNN when SP ≥ 16 (R123, R230). Safe: the hardware halts there too. -/
  | stackOverflow (word ia : Word)
  /-- Raised by 00EE when SP = 0 (R121, R230). Safe: the hardware halts there too. -/
  | stackUnderflow (word ia : Word)
  /-- Raised by Fetch when pc > 0xFFE (R102, R230); no word has been read. Safe: the hardware halts there too. -/
  | fetchOutOfRange (ia : Word)
  /-- Raised at dispatch by a word of no row of R76 (R86, R230). Safe: the hardware halts there too. -/
  | unimplementedOpcode (word ia : Word)
  /-- Raised by DXYN, FX33, FX55 and FX65 for a data address above 0xFFF (R53, R170, R230). Safe: where the reference
  software masks the address instead, the model stops and the software goes on (92_eei_decisions.md D5). -/
  | addressOutOfRange (word ia : Word) (addr : Nat)
  deriving DecidableEq, Repr

/-- Why the model gives no meaning. -/
inductive Refusal where
  /-- Raised by an arm of `exec` whose instruction has no meaning yet; no arm does. Safe. -/
  | notModelled (mnemonic : String)
  deriving DecidableEq, Repr

/-- RUN and FAULT of R38 together: a fault record is held exactly when the core is HALTED. -/
inductive RunState where
  /-- RUN = RUNNING, FAULT = none. -/
  | running
  /-- RUN = HALTED, FAULT = the record. -/
  | halted (record : Fault)
  deriving DecidableEq, Repr

/-- A host operation that waits for its turn (40_cycle_fsm.md R100, R111). The three reads change nothing and are not
listed. -/
inductive HostInput where
  /-- `timer_check(now)` (R211). -/
  | timerCheck (now : Nat)
  /-- `key_press(k)` (R215). -/
  | keyPress (k : Nat)
  /-- `key_release(k)` (R216). -/
  | keyRelease (k : Nat)
  /-- `cycle(now, rnd)` (R110): one instruction, with its two inputs. -/
  | cycle (now : Nat) (rnd : Byte)
  deriving DecidableEq, Repr

/-- The state of the core: the record CpuState of R40, then the inputs the host has supplied. -/
structure State where
  /-- MEM (20_memory.md R50). -/
  mem : Memory
  /-- V[0] to V[15] (R20); VF is V[15] (R21). -/
  v : Vector Byte 16
  /-- I, the index register (R27). -/
  i : Word
  /-- The program counter (R23). -/
  pc : Word
  /-- STACK[0] to STACK[15] (R29). -/
  stack : Vector Word 16
  /-- SP, the number of entries in use, 0 to 16 (R29). -/
  sp : Fin 17
  /-- DT, the delay timer (R32). -/
  dt : Byte
  /-- ST, the sound timer (R32). -/
  st : Byte
  /-- DT_LAST, the reading at which DT was last set or decremented (R33). -/
  dtLast : Nat
  /-- ST_LAST, the same of ST (R33). -/
  stLast : Nat
  /-- KEY[0] to KEY[15] (R34). -/
  key : Vector Bool 16
  /-- DISP[x][y], column x and row y (R35). -/
  disp : Vector (Vector Bool 32) 64
  /-- CFG, read only after construction (R42). -/
  cfg : Config
  /-- RUN and FAULT (R38). -/
  run : RunState
  /-- The latest clock reading the host supplied; in a cycle, that cycle's reading `now` (R104, R108). -/
  now : Nat
  /-- The random byte latched for the current cycle (R108, R113). -/
  rnd : Byte
  /-- THE MODEL'S OWN: the host's operations that wait, oldest first (log 1). -/
  inputs : List HostInput
  /-- THE MODEL'S OWN: how many free values have been taken (log 2, log 3). -/
  freeIdx : Nat
  deriving DecidableEq, Repr

/-- The all-zero state of R250 with the configuration `cfg`, built at clock reading `t0`, running, the pc at 0x200
and no program loaded. The font of `cfg` is what the unlisted addresses 0x050 to 0x09F read as. -/
def State.fresh (cfg : Config) (t0 : Nat) : State where
  mem := []
  v := Vector.replicate 16 0
  i := 0
  pc := 0x200
  stack := Vector.replicate 16 0
  sp := 0
  dt := 0
  st := 0
  dtLast := t0
  stLast := t0
  key := Vector.replicate 16 false
  disp := Vector.replicate 64 (Vector.replicate 32 false)
  cfg := cfg
  run := .running
  now := t0
  rnd := 0
  inputs := []
  freeIdx := 0

/-- The machine right after reset (R41, R250): the default configuration, an empty program image and t0 = 0 (log 5,
log 9). -/
def State.reset : State := State.fresh Config.default 0

end Sys2Proof.Machine
end

