-- ==== Sys2Proof/Machine/Ops.lean ====
section
/-! DEFINITION. The named operations on memory, registers, stack, timers and display (00_scope.md R12), and the one
operation that raises a fault (60_exceptions.md R232). The core has no traps and no return from one (R234), so there
is nothing beside it. -/

namespace Sys2Proof.Machine

/-- What a meaning answers. -/
abbrev Result := Host.Outcome State Fault Refusal

/-! ### Memory (20_memory.md) -/

/-- What an address reads as when nothing is listed for it: its reset contents, the font at 0x050 to 0x09F (glyph k at
0x050 + 5k) and zero elsewhere (R41, R55, R56). -/
def Memory.blank (font : Font) (a : Nat) : Byte :=
  if h : 0x050 ≤ a ∧ a < 0x0A0 then (font[(a - 0x050) / 5]'(by omega))[(a - 0x050) % 5]'(by omega) else 0

/-- The byte at an address (R52). -/
def Memory.read (font : Font) : Memory → Nat → Byte
  | [], a => Memory.blank font a
  | (k, b) :: rest, a => if k = a then b else Memory.read font rest a

/-- Put a cell in front of a list, unless its byte is what the address reads as anyway. -/
def Memory.consCell (font : Font) (a : Nat) (b : Byte) (rest : Memory) : Memory :=
  if b = Memory.blank font a then rest else (a, b) :: rest

/-- The memory after one byte is stored (R52), in canonical form. -/
def Memory.write (font : Font) : Memory → Nat → Byte → Memory
  | [], a, b => Memory.consCell font a b []
  | (k, c) :: rest, a, b =>
    if a < k then Memory.consCell font a b ((k, c) :: rest)
    else if a = k then Memory.consCell font a b rest
    else (k, c) :: Memory.write font rest a b

/-- The canonical form: addresses strictly rise, lie in 0x000 to 0xFFF, and no cell holds the byte its address reads
as when unlisted. -/
def Memory.wf (font : Font) : Memory → Bool
  | [] => true
  | (k, b) :: rest =>
    decide (k ≤ 0xFFF) && decide (b ≠ Memory.blank font k) && rest.all (fun c => decide (k < c.1)) &&
      Memory.wf font rest

/-- `MemRead(a, 1)` at an address that has been checked (R12, R52). -/
def State.readByte (s : State) (a : Nat) : Byte := Memory.read s.cfg.font s.mem a

/-- `MemWrite(a, 1, b)` at an address that has been checked (R12, R52). -/
def State.writeByte (s : State) (a : Nat) (b : Byte) : State :=
  { s with mem := Memory.write s.cfg.font s.mem a b }

/-! ### Registers (10_state.md) -/

/-- `V[r]` (R12, R20). -/
def State.reg (s : State) (r : Reg) : Byte := s.v[r]

/-- `V[r] <- b` (R12, R20). -/
def State.setReg (s : State) (r : Reg) (b : Byte) : State := { s with v := s.v.set r b }

/-- `I <- a` (R12, R27). -/
def State.setIndex (s : State) (a : Word) : State := { s with i := a }

/-- `pc <- a` (R12, R23). -/
def State.setPc (s : State) (a : Word) : State := { s with pc := a }

/-- A skip adds 2 to the pc when its condition holds, whatever the skipped word is (R128). -/
def State.skipIf (s : State) (c : Bool) : State := if c then s.setPc (s.pc + 2) else s

/-! ### Display (10_state.md R35) -/

/-- `DISP[x][y]` (R12). -/
def State.cell (s : State) (x : Fin 64) (y : Fin 32) : Bool := s.disp[x][y]

/-- `DISP[x][y] <- b` (R12). -/
def State.setCell (s : State) (x : Fin 64) (y : Fin 32) (b : Bool) : State :=
  { s with disp := s.disp.set x (s.disp[x].set y b) }

/-- Every cell false (R191). -/
def State.clearDisplay (s : State) : State := { s with disp := Vector.replicate 64 (Vector.replicate 32 false) }

/-! ### Timers (10_state.md R32, R33) -/

/-- Set DT; its clock reference becomes the current reading (R205). -/
def State.setDelay (s : State) (b : Byte) : State := { s with dt := b, dtLast := s.now }

/-- Set ST; its clock reference becomes the current reading (R206). -/
def State.setSound (s : State) (b : Byte) : State := { s with st := b, stLast := s.now }

/-! ### Faults (60_exceptions.md) -/

/-- `raise F(info)` (R12, R232): the cycle ends with the fault record; no later part of the rule runs. -/
def raise (f : Fault) : Result := .fault f

/-- The HALTED state of R232: RUN is HALTED, FAULT is the record, nothing else changes. -/
def State.halt (s : State) (f : Fault) : State := { s with run := .halted f }

/-- The address the executing instruction was fetched from: Fetch has left pc = ia + 2 (R13, R23, R101). -/
def State.ia (s : State) : Word := s.pc - 2

/-- RangeCheck(I, m) of R170, for the instruction whose word is `w`: where the last of the bytes I to I + m lies above
0xFFF, raise AddressOutOfRange with the first bad address; else go on with `k`. Addresses are exact integers, not
masked (R53). -/
def rangeCheck (w : Word) (m : Nat) (s : State) (k : Result) : Result :=
  if s.i.toNat + m > 0xFFF then raise (.addressOutOfRange w s.ia (max s.i.toNat 0x1000)) else k

/-- The numeric code of a fault kind (R230). -/
def Fault.code : Fault → Nat
  | .stackOverflow _ _ => 1
  | .stackUnderflow _ _ => 2
  | .fetchOutOfRange _ => 3
  | .unimplementedOpcode _ _ => 4
  | .addressOutOfRange _ _ _ => 5

/-- The record's instruction word; none where nothing was fetched (R38). -/
def Fault.word : Fault → Option Word
  | .stackOverflow w _ => some w
  | .stackUnderflow w _ => some w
  | .fetchOutOfRange _ => none
  | .unimplementedOpcode w _ => some w
  | .addressOutOfRange w _ _ => some w

/-- The record's `ia`, the program counter a diagnostic names (R38, R232). -/
def Fault.ia : Fault → Word
  | .stackOverflow _ a => a
  | .stackUnderflow _ a => a
  | .fetchOutOfRange a => a
  | .unimplementedOpcode _ a => a
  | .addressOutOfRange _ a _ => a

/-- The record's first bad data address; none for the other kinds (R38). -/
def Fault.addr : Fault → Option Nat
  | .stackOverflow _ _ => none
  | .stackUnderflow _ _ => none
  | .fetchOutOfRange _ => none
  | .unimplementedOpcode _ _ => none
  | .addressOutOfRange _ _ a => some a

/-! ### The call stack (10_state.md R29, R30) -/

/-- Push a return address for the instruction whose word is `w`, and go on with `k`; with 16 entries in use raise
StackOverflow, the stack unchanged (R123). -/
def push (w : Word) (a : Word) (s : State) (k : State → Result) : Result :=
  if h : s.sp.val < 16 then
    k { s with stack := s.stack.set s.sp.val a h, sp := ⟨s.sp.val + 1, by omega⟩ }
  else raise (.stackOverflow w s.ia)

/-- Pop a return address for the instruction whose word is `w`, and go on with `k`; with no entry in use raise
StackUnderflow, nothing written (R121). The entry keeps its value (R29). -/
def pop (w : Word) (s : State) (k : Word → State → Result) : Result :=
  if h : s.sp.val = 0 then raise (.stackUnderflow w s.ia)
  else k (s.stack[s.sp.val - 1]'(by omega)) { s with sp := ⟨s.sp.val - 1, by omega⟩ }

/-! ### Block transfers (43_index_memory.md R176, R66) -/

/-- V0 to VX in increasing order, X included (R176). -/
def regsUpTo (x : Reg) : List Reg := (List.finRange 16).filter (fun r => decide (r ≤ x))

/-- Store the registers of a list, register r at address base + r (R177). -/
def storeEach (base : Nat) : List Reg → State → State
  | [], s => s
  | r :: rest, s => storeEach base rest (s.writeByte (base + r.val) (s.reg r))

/-- Load the registers of a list, register r from address base + r (R178). -/
def loadEach (base : Nat) : List Reg → State → State
  | [], s => s
  | r :: rest, s => loadEach base rest (s.setReg r (s.readByte (base + r.val)))

/-- I after a transfer of V0 to VX: moved past the bytes under QUIRK_INDEX_INC = yes, mod 2^16, else unchanged
(R176). -/
def State.bumpIndex (s : State) (x : Reg) : State :=
  match s.cfg.quirkIndexInc with
  | .yes => s.setIndex (s.i + BitVec.ofNat 16 (x.val + 1))
  | .no => s

/-- Store a list of bytes at rising addresses (R252). -/
def storeBytes : Nat → List Byte → State → State
  | _, [], s => s
  | a, b :: rest, s => storeBytes (a + 1) rest (s.writeByte a b)

end Sys2Proof.Machine
end

