-- ==== Sys2Proof/Machine/Flags.lean ====
section
/-! DEFINITION. Every flag computation: the value VF gets (10_state.md R21). -/

namespace Sys2Proof.Machine

/-- A flag is 0 or 1 (R21). -/
def flagByte (c : Bool) : Byte := if c then 1 else 0

/-- 8XY4: 1 iff the exact sum is 256 or more (42_register_alu.md R154). -/
def carryFlag (x y : Byte) : Byte := flagByte (decide (x.toNat + y.toNat ≥ 256))

/-- 8XY5 and 8XY7: 1 iff the minuend is at least the subtrahend, that is, no borrow (R155, R157). -/
def noBorrowFlag (minuend subtrahend : Byte) : Byte := flagByte (decide (minuend.toNat ≥ subtrahend.toNat))

/-- 8XY6: bit 0 of the shift source, the bit shifted out (R156). -/
def shiftRightFlag (src : Byte) : Byte := flagByte (src.getLsbD 0)

/-- 8XYE: bit 7 of the shift source, the bit shifted out (R158). -/
def shiftLeftFlag (src : Byte) : Byte := flagByte (src.getLsbD 7)

/-- DXYN, at one 1 bit of the sprite: 1 where the cell was lit, else VF as it stands (44_display.md R192, R194). -/
def collisionFlag (lit : Bool) (flag : Byte) : Byte := if lit then 1 else flag

/-- Write an ALU result to V[X] and then its flag to VF, the flag last, so that with X = F the flag is what VF holds
(42_register_alu.md R141; 92_eei_decisions.md D7). -/
def State.setResultAndFlag (s : State) (x : Reg) (result flag : Byte) : State := (s.setReg x result).setReg VF flag

end Sys2Proof.Machine
end

