-- ==== Sys2Proof/Machine/Operands.lean ====
section
/-! DEFINITION. Every operand form of the instruction rules that is more than a register or an immediate. -/

namespace Sys2Proof.Machine

/-- The low nibble of a register as a key index or a glyph number: `V[X] & 0x0F` (45_keypad_timers.md R201,
43_index_memory.md R174). -/
def lowNibble (b : Byte) : Fin 16 := (b.extractLsb' 0 4).toFin

/-- The shift source: V[Y] under QUIRK_SHIFT = legacy, V[X] under modern (42_register_alu.md R142). -/
def shiftSource (x y : Reg) (s : State) : Byte :=
  match s.cfg.quirkShift with
  | .legacy => s.reg y
  | .modern => s.reg x

/-- X = w[11:8] of a BNNN word, the top nibble of its NNN field (41_control_flow.md R131). -/
def offsetReg (nnn : Word) : Reg := (nnn.extractLsb' 8 4).toFin

/-- The base BNNN adds: V[0] under QUIRK_JUMP = original, V[X] under superchip (R131). -/
def jumpBase (nnn : Word) (s : State) : Byte :=
  match s.cfg.quirkJump with
  | .original => s.reg 0
  | .superchip => s.reg (offsetReg nnn)

/-- FONT_BASE + 5 × glyph (43_index_memory.md R174). -/
def glyphAddress (k : Fin 16) : Word := BitVec.ofNat 16 (0x050 + 5 * k.val)

/-- The hundreds digit of a byte, 0 to 2 (R175). -/
def bcdHundreds (b : Byte) : Byte := BitVec.ofNat 8 (b.toNat / 100)

/-- The tens digit of a byte (R175). -/
def bcdTens (b : Byte) : Byte := BitVec.ofNat 8 (b.toNat / 10 % 10)

/-- The units digit of a byte (R175). -/
def bcdUnits (b : Byte) : Byte := BitVec.ofNat 8 (b.toNat % 10)

/-- `KEY[k]` (R12, R34). -/
def State.keyDown (s : State) (k : Fin 16) : Bool := s.key[k]

/-- The lowest-indexed pressed key, if any key is pressed (R203). -/
def lowestKey (s : State) : Option (Fin 16) := (List.finRange 16).find? (fun k => s.keyDown k)

/-- The start column of a sprite: V[X] modulo 64 (44_display.md R192, R193). -/
def spriteColumn (x : Reg) (s : State) : Nat := (s.reg x).toNat % 64

/-- The start row of a sprite: V[Y] modulo 32 (R192, R193). -/
def spriteRow (y : Reg) (s : State) : Nat := (s.reg y).toNat % 32

/-- The number of rows drawn: rows at or beyond row 32 are skipped (R192, R193). -/
def spriteRows (y : Reg) (n : Nat) (s : State) : Nat := min n (32 - spriteRow y s)

/-- Bit `7 - c` of a sprite byte: its column c, the most significant bit first (R192). -/
def spriteBit (b : Byte) (c : Nat) : Bool := b.getLsbD (7 - c)

end Sys2Proof.Machine
end

