-- ==== Sys2Proof/Machine/Alu.lean ====
section
/-! DEFINITION. Register and ALU instructions (42_register_alu.md). Operands are read before anything is written, and a
flag is written last (R141). -/

namespace Sys2Proof.Machine

/-- 6XNN LD Vx, nn (R148). -/
def execLdByte (x : Reg) (nn : Byte) (s : State) : Result := .next (s.setReg x nn)

/-- 7XNN ADD Vx, nn: mod 256, no flag (R149). -/
def execAddByte (x : Reg) (nn : Byte) (s : State) : Result := .next (s.setReg x (s.reg x + nn))

/-- 8XY0 LD Vx, Vy (R150). -/
def execLdReg (x y : Reg) (s : State) : Result := .next (s.setReg x (s.reg y))

/-- 8XY1 OR Vx, Vy: no flag (R151). -/
def execOrReg (x y : Reg) (s : State) : Result := .next (s.setReg x (s.reg x ||| s.reg y))

/-- 8XY2 AND Vx, Vy: no flag (R152). -/
def execAndReg (x y : Reg) (s : State) : Result := .next (s.setReg x (s.reg x &&& s.reg y))

/-- 8XY3 XOR Vx, Vy: no flag (R153). -/
def execXorReg (x y : Reg) (s : State) : Result := .next (s.setReg x (s.reg x ^^^ s.reg y))

/-- 8XY4 ADD Vx, Vy: VF is the carry (R154). -/
def execAddReg (x y : Reg) (s : State) : Result :=
  .next (s.setResultAndFlag x (s.reg x + s.reg y) (carryFlag (s.reg x) (s.reg y)))

/-- 8XY5 SUB Vx, Vy: VF is 1 iff no borrow (R155). -/
def execSub (x y : Reg) (s : State) : Result :=
  .next (s.setResultAndFlag x (s.reg x - s.reg y) (noBorrowFlag (s.reg x) (s.reg y)))

/-- 8XY6 SHR Vx, Vy: one bit, the source by QUIRK_SHIFT; VF is the bit shifted out (R156). -/
def execShr (x y : Reg) (s : State) : Result :=
  .next (s.setResultAndFlag x (shiftSource x y s >>> 1) (shiftRightFlag (shiftSource x y s)))

/-- 8XY7 SUBN Vx, Vy: VF is 1 iff no borrow (R157). -/
def execSubn (x y : Reg) (s : State) : Result :=
  .next (s.setResultAndFlag x (s.reg y - s.reg x) (noBorrowFlag (s.reg y) (s.reg x)))

/-- 8XYE SHL Vx, Vy: one bit, the source by QUIRK_SHIFT; VF is the bit shifted out (R158). -/
def execShl (x y : Reg) (s : State) : Result :=
  .next (s.setResultAndFlag x (shiftSource x y s <<< 1) (shiftLeftFlag (shiftSource x y s)))

/-- CXNN RND Vx, nn: the cycle's random byte, masked (R159). -/
def execRnd (x : Reg) (nn : Byte) (s : State) : Result := .next (s.setReg x (s.rnd &&& nn))

end Sys2Proof.Machine
end

