-- ==== Sys2Proof/Machine/Control.lean ====
section
/-! DEFINITION. Control transfer (41_control_flow.md). In every rule Fetch has run: pc = ia + 2 (00_scope.md R13). -/

namespace Sys2Proof.Machine

/-- 00EE RET (R121). -/
def execRet (s : State) : Result := pop (encode .ret) s fun a t => .next (t.setPc a)

/-- 1NNN JP nnn (R122). -/
def execJp (nnn : Word) (s : State) : Result := .next (s.setPc nnn)

/-- 2NNN CALL nnn: the return address pushed is pc = ia + 2 (R123). -/
def execCall (nnn : Word) (s : State) : Result := push (encode (.call nnn)) s.pc s fun t => .next (t.setPc nnn)

/-- 3XNN SE Vx, nn (R124). -/
def execSeByte (x : Reg) (nn : Byte) (s : State) : Result := .next (s.skipIf (s.reg x == nn))

/-- 4XNN SNE Vx, nn (R125). -/
def execSneByte (x : Reg) (nn : Byte) (s : State) : Result := .next (s.skipIf (s.reg x != nn))

/-- 5XY0 SE Vx, Vy (R126). -/
def execSeReg (x y : Reg) (s : State) : Result := .next (s.skipIf (s.reg x == s.reg y))

/-- 9XY0 SNE Vx, Vy (R127). -/
def execSneReg (x y : Reg) (s : State) : Result := .next (s.skipIf (s.reg x != s.reg y))

/-- BNNN JP V0, nnn: the sum is exact and not masked (R131, R25). -/
def execJpOffset (nnn : Word) (s : State) : Result := .next (s.setPc (nnn + zext16 (jumpBase nnn s)))

end Sys2Proof.Machine
end

