-- ==== Sys2Proof/Machine/Display.lean ====
section
/-! DEFINITION. The display instructions and the sprite compositor (44_display.md). -/

namespace Sys2Proof.Machine

/-- 00E0 CLS (R191). -/
def execCls (s : State) : Result := .next s.clearDisplay

/-- A 1 bit of a sprite at column x and row y: test for collision with the cell's prior value, then flip the cell
(R192, R194). Outside the canvas nothing is drawn (R193). -/
def drawPixel (x y : Nat) (s : State) : State :=
  if h : x < 64 ∧ y < 32 then
    let lit := s.cell ⟨x, h.1⟩ ⟨y, h.2⟩
    (s.setReg VF (collisionFlag lit (s.reg VF))).setCell ⟨x, h.1⟩ ⟨y, h.2⟩ (!lit)
  else s

/-- The bits of one sprite byte, from the columns of the list, at row y; a column at or beyond 64 is skipped (R192). -/
def drawColumns (b : Byte) (x0 y : Nat) : List Nat → State → State
  | [], s => s
  | c :: rest, s => drawColumns b x0 y rest (if spriteBit b c then drawPixel (x0 + c) y s else s)

/-- The rows of a sprite, from the row numbers of the list: row r is the byte at I + r, drawn at row y0 + r (R192). -/
def drawRows (x0 y0 : Nat) : List Nat → State → State
  | [], s => s
  | r :: rest, s =>
    drawRows x0 y0 rest (drawColumns (s.readByte (s.i.toNat + r)) x0 (y0 + r) (List.range 8) s)

/-- The sprite at (x0, y0) drawn on a cleared flag (R192). -/
def drawSprite (x0 y0 rows : Nat) (s : State) : State := drawRows x0 y0 (List.range rows) (s.setReg VF 0)

/-- DXYN DRW Vx, Vy, n: the coordinates are sampled before VF is cleared; the range check covers the rows that are
drawn, and with none there is nothing to check (R192, R194). -/
def execDrw (x y : Reg) (n : Nat) (s : State) : Result :=
  let rows := spriteRows y n s
  let drawn := drawSprite (spriteColumn x s) (spriteRow y s) rows s
  if rows = 0 then .next drawn else rangeCheck (encode (.drw x y n)) (rows - 1) s (.next drawn)

end Sys2Proof.Machine
end

