-- ==== Sys2Proof/Machine/Index.lean ====
section
/-! DEFINITION. Index register and memory instructions (43_index_memory.md). Every address is checked before any state
changes (R170; 20_memory.md R54). -/

namespace Sys2Proof.Machine

/-- ANNN LD I, nnn (R172). -/
def execLdIndex (nnn : Word) (s : State) : Result := .next (s.setIndex nnn)

/-- FX1E ADD I, Vx: mod 2^16, no flag, no check (R173). -/
def execAddIndex (x : Reg) (s : State) : Result := .next (s.setIndex (s.i + zext16 (s.reg x)))

/-- FX29 LD F, Vx: the address of the glyph of the low nibble (R174). -/
def execLdFont (x : Reg) (s : State) : Result := .next (s.setIndex (glyphAddress (lowNibble (s.reg x))))

/-- FX33 LD B, Vx: hundreds, tens and units at I, I+1 and I+2 (R175). -/
def execLdBcd (x : Reg) (s : State) : Result :=
  rangeCheck (encode (.ldBcd x)) 2 s <| .next <|
    ((s.writeByte s.i.toNat (bcdHundreds (s.reg x))).writeByte (s.i.toNat + 1) (bcdTens (s.reg x))).writeByte
      (s.i.toNat + 2) (bcdUnits (s.reg x))

/-- FX55 LD [I], Vx: V0 to VX to memory at I (R177). -/
def execStoreRegs (x : Reg) (s : State) : Result :=
  rangeCheck (encode (.storeRegs x)) x.val s <| .next <| (storeEach s.i.toNat (regsUpTo x) s).bumpIndex x

/-- FX65 LD Vx, [I]: V0 to VX from memory at I (R178). -/
def execLoadRegs (x : Reg) (s : State) : Result :=
  rangeCheck (encode (.loadRegs x)) x.val s <| .next <| (loadEach s.i.toNat (regsUpTo x) s).bumpIndex x

end Sys2Proof.Machine
end

