-- ==== Sys2Proof/Machine/Keypad.lean ====
section
/-! DEFINITION. Keypad and timer instructions (45_keypad_timers.md). The keypad is read as it stands at the start of the
cycle; no instruction writes it (R200). -/

namespace Sys2Proof.Machine

/-- EX9E SKP Vx (R201). -/
def execSkp (x : Reg) (s : State) : Result := .next (s.skipIf (s.keyDown (lowNibble (s.reg x))))

/-- EXA1 SKNP Vx (R202). -/
def execSknp (x : Reg) (s : State) : Result := .next (s.skipIf (!s.keyDown (lowNibble (s.reg x))))

/-- FX0A LD Vx, K: the lowest-indexed pressed key, or the pc rewound by 2 so that this instruction runs again (R203). -/
def execLdKey (x : Reg) (s : State) : Result :=
  match lowestKey s with
  | some k => .next (s.setReg x (BitVec.ofNat 8 k.val))
  | none => .next (s.setPc (s.pc - 2))

/-- FX07 LD Vx, DT (R204). -/
def execLdFromDelay (x : Reg) (s : State) : Result := .next (s.setReg x s.dt)

/-- FX15 LD DT, Vx (R205). -/
def execLdDelay (x : Reg) (s : State) : Result := .next (s.setDelay (s.reg x))

/-- FX18 LD ST, Vx (R206). -/
def execLdSound (x : Reg) (s : State) : Result := .next (s.setSound (s.reg x))

end Sys2Proof.Machine
end

