-- ==== Sys2Proof/Machine/HostInterface.lean ====
section
/-! DEFINITION. The host's operations but `cycle` (40_cycle_fsm.md R100): construction, the timer check, key events and
the reads; and how the operations that wait in `State.inputs` reach the core (log 1). -/

namespace Sys2Proof.Machine

/-! ### Construction (70_reset_and_hazards.md R250 to R253) -/

/-- The load errors of 60_exceptions.md R231; after one no cycle ever runs. -/
inductive LoadError where
  /-- The collaborator could not read the image. -/
  | imageLoadFailed
  /-- The image is longer than 3584 bytes. -/
  | imageTooLarge
  deriving DecidableEq, Repr

/-- `construct(cfg, image, t0)` (R250): the all-zero state, the image verbatim at 0x200 (R252), the font of `cfg` at
0x050 (R251). `image` is none where it could not be read (R253). -/
def construct (cfg : Config) (image : Option (List Byte)) (t0 : Nat) : Except LoadError State :=
  match image with
  | none => .error .imageLoadFailed
  | some bytes =>
    if bytes.length > 3584 then .error .imageTooLarge else .ok (storeBytes 0x200 bytes (State.fresh cfg t0))

/-! ### The timer check (45_keypad_timers.md R211, R212) -/

/-- A timer that is due: nonzero, and more than one period since it was last set or decremented, strictly (R211). -/
def timerDue (s : State) (value : Byte) (last now : Nat) : Bool :=
  value != 0 && decide (now - last > s.cfg.timerPeriod)

/-- The check of DT at the reading `now` (R211). -/
def State.tickDelay (s : State) (now : Nat) : State :=
  if timerDue s s.dt s.dtLast now then { s with dt := s.dt - 1, dtLast := now } else s

/-- The check of ST at the reading `now` (R211). -/
def State.tickSound (s : State) (now : Nat) : State :=
  if timerDue s s.st s.stLast now then { s with st := s.st - 1, stLast := now } else s

/-- `timer_check(now)`: at most one decrement of each timer; no effect in HALTED (R211, R232). -/
def State.timerCheck (s : State) (now : Nat) : State :=
  match s.run with
  | .running => { (s.tickDelay now).tickSound now with now := now }
  | .halted _ => s

/-! ### Key events (R215, R216) -/

/-- The rejection of a key index above 15 (R215). -/
inductive KeyError where
  | keyIndexOutOfRange
  deriving DecidableEq, Repr

/-- Set one key flag: a key index above 15 is rejected and nothing changes; no effect in HALTED (R215, R216, R232). -/
def State.setKey (s : State) (k : Nat) (down : Bool) : Except KeyError State :=
  if h : k < 16 then
    match s.run with
    | .running => .ok { s with key := s.key.set k down h }
    | .halted _ => .ok s
  else .error .keyIndexOutOfRange

/-- `key_press(k)` (R215). -/
def State.keyPress (s : State) (k : Nat) : Except KeyError State := s.setKey k true

/-- `key_release(k)` (R216). -/
def State.keyRelease (s : State) (k : Nat) : Except KeyError State := s.setKey k false

/-- The core after a key event: a rejected event changes nothing, and the core goes on (R215). -/
def State.afterKeyEvent (s : State) (r : Except KeyError State) : State :=
  match r with
  | .ok t => t
  | .error _ => s

/-! ### The reads (40_cycle_fsm.md R106, R107; 10_state.md R38) -/

/-- `read_display`: the grid DISP. -/
def State.readDisplay (s : State) : Vector (Vector Bool 32) 64 := s.disp

/-- `read_timers`: DT, and ST, which is the sound output. -/
def State.readTimers (s : State) : Byte × Byte := (s.dt, s.st)

/-- `read_status`: RUN, and FAULT where there is one. -/
def State.readStatus (s : State) : RunState := s.run

/-- FAULT: the record, or none while RUNNING (R38). -/
def State.faultRecord (s : State) : Option Fault :=
  match s.run with
  | .running => none
  | .halted f => some f

/-! ### The inputs that wait (log 1) -/

/-- The inputs of a cycle when none wait: the host takes any time and the random byte is any byte (R8, R104). Both are
free values (log 2, log 3). -/
def State.freeCycleInputs (s : State) : State :=
  { s with
    inputs := []
    now := s.now + Config.freeElapsed s.freeIdx
    rnd := Config.freeRandom s.freeIdx
    freeIdx := s.freeIdx + 1 }

/-- Perform the waiting operations of a list in order, up to and with the inputs of the next cycle, which are latched
(R108, R111); where the list ends before a cycle, that cycle's inputs are free. -/
def takeInputs : List HostInput → State → State
  | [], s => s.freeCycleInputs
  | .timerCheck now :: rest, s => takeInputs rest (s.timerCheck now)
  | .keyPress k :: rest, s => takeInputs rest (s.afterKeyEvent (s.keyPress k))
  | .keyRelease k :: rest, s => takeInputs rest (s.afterKeyEvent (s.keyRelease k))
  | .cycle now rnd :: rest, s => { s with inputs := rest, now := now, rnd := rnd }

/-- The state at the start of the next cycle: what waits before it has been performed and its inputs are latched. -/
def State.beginCycle (s : State) : State := takeInputs s.inputs s

/-- The readings of a list of inputs never decrease and start no earlier than `t`: the host's duty of R104. -/
def readingsRise : Nat → List HostInput → Bool
  | _, [] => true
  | t, .timerCheck now :: rest => decide (t ≤ now) && readingsRise now rest
  | t, .keyPress _ :: rest => readingsRise t rest
  | t, .keyRelease _ :: rest => readingsRise t rest
  | t, .cycle now _ :: rest => decide (t ≤ now) && readingsRise now rest

/-- The host keeps its duty: every reading that waits is at least every earlier one (R104). -/
def State.hostDuty (s : State) : Bool := readingsRise s.now s.inputs

end Sys2Proof.Machine
end

