-- ==== Sys2Proof/Machine/Cycle.lean ====
section
/-! DEFINITION. One cycle: Fetch, Decode, Execute (40_cycle_fsm.md R101 to R110), and the host's `cycle` operation. -/

namespace Sys2Proof.Machine

/-- The word at the pc, the high byte first (R60, R101). -/
def State.fetchedWord (s : State) : Word := wordOfBytes (s.readByte s.pc.toNat) (s.readByte (s.pc.toNat + 1))

/-- The state after a successful Fetch: the pc is 2 further, before anything is interpreted (R101). -/
def State.afterFetch (s : State) : State := s.setPc (s.pc + 2)

/-- Fetch (R101, R102): out of range iff pc > 0xFFE, raised before any byte is read and before the pc advances. No
alignment is asked (R61). -/
def fetch (s : State) : Host.Outcome (Word × State) Fault Refusal :=
  if s.pc.toNat > 0xFFE then .fault (.fetchOutOfRange s.pc) else .next (s.fetchedWord, s.afterFetch)

/-- Decode and dispatch of a fetched word: the word's instruction is executed; a word of no row of the table raises
UnimplementedOpcode and writes nothing else (R86, R105, R109). -/
def dispatchWord (w : Word) (s : State) : Result :=
  match decodeWord w with
  | some i => exec i s
  | none => raise (.unimplementedOpcode w s.ia)

/-- Fetch, Decode and Execute on a core whose cycle inputs are latched (R109). -/
def runCycle (s : State) : Result :=
  match fetch s with
  | .next (w, t) => dispatchWord w t
  | .fault f => raise f
  | .refused r => .refused r

/-- The state in which a fault leaves a core that was in `s` before the cycle: HALTED with the record, and of the
instruction only the pc advance of Fetch, which a fetch fault has not made (60_exceptions.md R233). -/
def State.haltedBy (s : State) (f : Fault) : State :=
  match f with
  | .fetchOutOfRange _ => s.halt f
  | .stackOverflow _ _ => s.afterFetch.halt f
  | .stackUnderflow _ _ => s.afterFetch.halt f
  | .unimplementedOpcode _ _ => s.afterFetch.halt f
  | .addressOutOfRange _ _ _ => s.afterFetch.halt f

/-- What `cycle` returns to the host (R100). -/
inductive CycleReply where
  | ok
  | fault (record : Fault)
  /-- The model's own: an instruction without a meaning; a statement says that none is. -/
  | refused (r : Refusal)
  deriving DecidableEq, Repr

/-- The host's `cycle(now, rnd)` (R100, R109): one instruction, or HALTED with the fault record, which is also returned
(R232). On a HALTED core it has no effect. -/
def State.cycle (s : State) (now : Nat) (rnd : Byte) : State × CycleReply :=
  match s.run with
  | .halted f => (s, .fault f)
  | .running =>
    let begun := { s with now := now, rnd := rnd }
    match runCycle begun with
    | .next t => (t, .ok)
    | .fault f => (begun.haltedBy f, .fault f)
    | .refused r => (begun, .refused r)

/-- The core's part of one step: on a HALTED core nothing runs and the fault stands (R232); on a running one the waiting
host operations are performed, and then one cycle (R108, R111). -/
def stepCore (s : State) : Result :=
  match s.run with
  | .halted f => raise f
  | .running => runCycle s.beginCycle

/-- The state with one word stored where the next Fetch reads it, at the pc, high byte first; where no Fetch is possible
(pc > 0xFFE) the state itself. -/
def State.storeFetchWord (s : State) (w : Word) : State :=
  if s.pc.toNat > 0xFFE then s
  else (s.writeByte s.pc.toNat (highByte w)).writeByte (s.pc.toNat + 1) (lowByte w)

end Sys2Proof.Machine
end

