-- ==== Sys2Proof/Machine/Step.lean ====
section
/-! DEFINITION. The step function: one step is one `cycle` of the core, with the host operations that wait before it
(log 1). -/

namespace Sys2Proof.Machine

/-- One step of the machine: next state, fault (the core is HALTED, 60_exceptions.md R232) or refusal. -/
def step (s : State) : Host.Outcome State Fault Refusal := stepCore s

/-- `s` with the instruction whose bits are `w` stored where `step` fetches its next instruction (log 9). A running core
whose pc is in range then fetches and runs exactly it. -/
def State.withFetchWord (s : State) (nbits w : Nat) : State := s.storeFetchWord (BitVec.ofNat 16 (w % 2 ^ nbits))

end Sys2Proof.Machine
end

