-- ==== Sys2Proof/Safety.lean ====
section
/-! DEFINITION. The terms that claims use: what an instruction leaves as it was (frames), what a safe state is (the
invariant that every step keeps) and what a fault of an instruction may be. -/

namespace Sys2Proof.Machine

/-- The memory of the state is in canonical form. -/
abbrev State.memOk (s : State) : Prop := Memory.wf s.cfg.font s.mem = true

/-! ### Frames -/

/-- The parts of the state, besides the general registers, that some instruction may write. -/
inductive Part where
  /-- The program counter. -/
  | pc
  /-- The index register I. -/
  | index
  /-- STACK and SP. -/
  | stack
  /-- DT and DT_LAST. -/
  | delay
  /-- ST and ST_LAST. -/
  | sound
  /-- Some byte of memory. -/
  | memory
  /-- Some cell of the display. -/
  | display
  deriving DecidableEq, Repr

/-- Every byte of memory reads as before. -/
def SameMemory (s t : State) : Prop := ∀ a, t.readByte a = s.readByte a

/-- Every byte of memory reads as before, except the `n` bytes from `lo`. -/
def SameMemoryBut (lo n : Nat) (s t : State) : Prop := ∀ a, ¬(lo ≤ a ∧ a < lo + n) → t.readByte a = s.readByte a

/-- Every cell of the display is as before. -/
def SameDisplay (s t : State) : Prop := ∀ x y, t.cell x y = s.cell x y

/-- What no instruction may write: the keypad (R34), the configuration (R9), RUN and FAULT (R38) and the inputs that
the host has supplied. -/
def SameHostSide (s t : State) : Prop :=
  t.key = s.key ∧ t.cfg = s.cfg ∧ t.run = s.run ∧ t.now = s.now ∧ t.rnd = s.rnd ∧ t.inputs = s.inputs ∧
    t.freeIdx = s.freeIdx

/-- From `s` to `t` nothing has changed but the registers of the list `rs` and the parts of the list `ps`. -/
structure Frame (rs : List Reg) (ps : List Part) (s t : State) : Prop where
  regs : ∀ r, r ∉ rs → t.reg r = s.reg r
  pc : Part.pc ∉ ps → t.pc = s.pc
  index : Part.index ∉ ps → t.i = s.i
  stack : Part.stack ∉ ps → t.sp = s.sp ∧ t.stack = s.stack
  delay : Part.delay ∉ ps → t.dt = s.dt ∧ t.dtLast = s.dtLast
  sound : Part.sound ∉ ps → t.st = s.st ∧ t.stLast = s.stLast
  memory : Part.memory ∉ ps → SameMemory s t
  display : Part.display ∉ ps → SameDisplay s t
  host : SameHostSide s t

/-! ### What each instruction writes -/

/-- The general registers an instruction may write in the state after its fetch (10_state.md R22): its destination, and
VF where it writes a flag (R21). -/
def regsWritten (i : Instr) (s : State) : List Reg :=
  match i with
  | .ldByte x _ | .addByte x _ | .rnd x _ => [x]
  | .ldReg x _ | .orReg x _ | .andReg x _ | .xorReg x _ => [x]
  | .addReg x _ | .sub x _ | .shr x _ | .subn x _ | .shl x _ => [x, VF]
  | .drw _ _ _ => [VF]
  | .ldFromDelay x => [x]
  | .ldKey x => if lowestKey s = none then [] else [x]
  | .loadRegs x => regsUpTo x
  | .cls | .ret | .jp _ | .call _ | .seByte _ _ | .sneByte _ _ | .seReg _ _ | .sneReg _ _ => []
  | .ldIndex _ | .jpOffset _ | .skp _ | .sknp _ | .ldDelay _ | .ldSound _ => []
  | .addIndex _ | .ldFont _ | .ldBcd _ | .storeRegs _ => []

/-- The other parts of the state an instruction may write: the pc (R24), I (R27), the stack (R31), the timers (R32),
memory (20_memory.md R51) and the display (R35). -/
def partsWritten (i : Instr) (s : State) : List Part :=
  match i with
  | .ret | .call _ => [.pc, .stack]
  | .jp _ | .jpOffset _ => [.pc]
  | .seByte _ _ | .sneByte _ _ | .seReg _ _ | .sneReg _ _ | .skp _ | .sknp _ => [.pc]
  | .ldKey _ => if lowestKey s = none then [.pc] else []
  | .ldIndex _ | .addIndex _ | .ldFont _ => [.index]
  | .ldBcd _ => [.memory]
  | .storeRegs _ => if s.cfg.quirkIndexInc = .yes then [.memory, .index] else [.memory]
  | .loadRegs _ => if s.cfg.quirkIndexInc = .yes then [.index] else []
  | .cls | .drw _ _ _ => [.display]
  | .ldDelay _ => [.delay]
  | .ldSound _ => [.sound]
  | .ldByte _ _ | .addByte _ _ | .ldReg _ _ | .orReg _ _ | .andReg _ _ | .xorReg _ _ => []
  | .addReg _ _ | .sub _ _ | .shr _ _ | .subn _ _ | .shl _ _ | .rnd _ _ | .ldFromDelay _ => []

/-- How many bytes from I on an instruction stores (43_index_memory.md R175, R177): the addresses that `execLdBcd` and
`storeEach` write to. -/
def bytesStored (i : Instr) : Nat :=
  match i with
  | .ldBcd _ => 3
  | .storeRegs x => x.val + 1
  | .cls | .ret | .jp _ | .call _ | .seByte _ _ | .sneByte _ _ | .seReg _ _ | .ldByte _ _ | .addByte _ _ => 0
  | .ldReg _ _ | .orReg _ _ | .andReg _ _ | .xorReg _ _ | .addReg _ _ | .sub _ _ | .shr _ _ | .subn _ _ => 0
  | .shl _ _ | .sneReg _ _ | .ldIndex _ | .jpOffset _ | .rnd _ _ | .drw _ _ _ | .skp _ | .sknp _ => 0
  | .ldFromDelay _ | .ldKey _ | .ldDelay _ | .ldSound _ | .addIndex _ | .ldFont _ | .loadRegs _ => 0

/-- Whether an instruction writes the stack entry `k`: 2NNN writes STACK[SP], and 00EE keeps them all
(10_state.md R29). -/
def stackEntryWritten (i : Instr) (s : State) (k : Fin 16) : Bool :=
  match i with
  | .call _ => decide (k.val = s.sp.val)
  | .cls | .ret | .jp _ | .seByte _ _ | .sneByte _ _ | .seReg _ _ | .ldByte _ _ | .addByte _ _ => false
  | .ldReg _ _ | .orReg _ _ | .andReg _ _ | .xorReg _ _ | .addReg _ _ | .sub _ _ | .shr _ _ | .subn _ _ => false
  | .shl _ _ | .sneReg _ _ | .ldIndex _ | .jpOffset _ | .rnd _ _ | .drw _ _ _ | .skp _ | .sknp _ => false
  | .ldFromDelay _ | .ldKey _ | .ldDelay _ | .ldSound _ | .addIndex _ | .ldFont _ | .ldBcd _ => false
  | .storeRegs _ | .loadRegs _ => false

/-- The pc after the execute phase, by the table of 10_state.md R24, in the state after the fetch, whose pc is
ia + 2. -/
def pcAfter (i : Instr) (s : State) : Word :=
  match i with
  | .jp nnn | .call nnn => nnn
  | .ret => s.stack[s.sp.val - 1]'(by omega)
  | .jpOffset nnn =>
    match s.cfg.quirkJump with
    | .original => nnn + zext16 (s.reg 0)
    | .superchip => nnn + zext16 (s.reg (offsetReg nnn))
  | .seByte x nn => if s.reg x = nn then s.ia + 4 else s.ia + 2
  | .sneByte x nn => if s.reg x = nn then s.ia + 2 else s.ia + 4
  | .seReg x y => if s.reg x = s.reg y then s.ia + 4 else s.ia + 2
  | .sneReg x y => if s.reg x = s.reg y then s.ia + 2 else s.ia + 4
  | .skp x => if s.key[lowNibble (s.reg x)] then s.ia + 4 else s.ia + 2
  | .sknp x => if s.key[lowNibble (s.reg x)] then s.ia + 2 else s.ia + 4
  | .ldKey _ => if ∃ k : Fin 16, s.key[k] = true then s.ia + 2 else s.ia
  | .cls | .ldByte _ _ | .addByte _ _ | .ldReg _ _ | .orReg _ _ | .andReg _ _ | .xorReg _ _ => s.ia + 2
  | .addReg _ _ | .sub _ _ | .shr _ _ | .subn _ _ | .shl _ _ | .ldIndex _ | .rnd _ _ | .drw _ _ _ => s.ia + 2
  | .ldFromDelay _ | .ldDelay _ | .ldSound _ | .addIndex _ | .ldFont _ | .ldBcd _ => s.ia + 2
  | .storeRegs _ | .loadRegs _ => s.ia + 2

/-- An outcome with its next state changed by a function; a fault or a refusal stays. -/
def mapNext (f : State → State) : Result → Result
  | .next t => .next (f t)
  | .fault r => .fault r
  | .refused r => .refused r

/-! ### Sprites -/

/-- The sprite of `rows` rows at (x0, y0), its bytes at I onwards, has a 1 bit on the cell (x, y) of the canvas
(44_display.md R192, R193): column `x - x0` of the byte at `I + (y - y0)`. -/
def spriteCovers (s : State) (x0 y0 rows : Nat) (x : Fin 64) (y : Fin 32) : Bool :=
  decide (x0 ≤ x.val ∧ x.val < x0 + 8 ∧ y0 ≤ y.val ∧ y.val < y0 + rows) &&
    spriteBit (s.readByte (s.i.toNat + (y.val - y0))) (x.val - x0)

/-- The cells that DXYN with these operands flips in the state `s`. -/
def drawCovers (x y : Reg) (n : Nat) (s : State) (cx : Fin 64) (cy : Fin 32) : Bool :=
  spriteCovers s (spriteColumn x s) (spriteRow y s) (spriteRows y n s) cx cy

/-- Whether an instruction writes the cell (cx, cy): 00E0 every cell, DXYN the cells its sprite covers
(44_display.md R191, R193). -/
def cellWritten (i : Instr) (s : State) (cx : Fin 64) (cy : Fin 32) : Bool :=
  match i with
  | .cls => true
  | .drw x y n => drawCovers x y n s cx cy
  | .ret | .jp _ | .call _ | .seByte _ _ | .sneByte _ _ | .seReg _ _ | .ldByte _ _ | .addByte _ _ => false
  | .ldReg _ _ | .orReg _ _ | .andReg _ _ | .xorReg _ _ | .addReg _ _ | .sub _ _ | .shr _ _ | .subn _ _ => false
  | .shl _ _ | .sneReg _ _ | .ldIndex _ | .jpOffset _ | .rnd _ _ | .skp _ | .sknp _ => false
  | .ldFromDelay _ | .ldKey _ | .ldDelay _ | .ldSound _ | .addIndex _ | .ldFont _ | .ldBcd _ => false
  | .storeRegs _ | .loadRegs _ => false

/-- Every byte that DXYN with these operands reads lies in memory: no row is drawn, or the last drawn row's byte is at
0xFFF or below (R192). -/
def drawInRange (y : Reg) (n : Nat) (s : State) : Prop :=
  spriteRows y n s = 0 ∨ s.i.toNat + (spriteRows y n s - 1) ≤ 0xFFF

/-! ### The invariant -/

/-- What holds of the core between steps, from reset on, while it runs and the host keeps its duty. -/
structure State.Inv (s : State) : Prop where
  /-- Memory is in canonical form. -/
  mem : s.memOk
  /-- The core is RUNNING (R108). -/
  running : s.run = .running
  /-- The largest value the pc can reach is 0x10FE (R25). -/
  pc : s.pc.toNat ≤ 0x10FE
  /-- A pushed return address is at most 0x1000 (R123). -/
  stack : ∀ k : Fin 16, s.stack[k].toNat ≤ 0x1000
  /-- The configuration is a legal one (R42). -/
  cfg : s.cfg.wf = true
  /-- DT was last set or decremented no later than the latest reading (R33, R104). -/
  delay : s.dtLast ≤ s.now
  /-- ST was last set or decremented no later than the latest reading (R33, R104). -/
  sound : s.stLast ≤ s.now
  /-- The readings that wait never decrease (R104). -/
  duty : s.hostDuty = true

/-! ### Faults of instructions -/

/-- The fault that an instruction's own rule can raise in the state after its fetch, with its record: StackOverflow of
2NNN, StackUnderflow of 00EE, AddressOutOfRange of DXYN, FX33, FX55 and FX65; none of any other
(60_exceptions.md R230, R235). -/
def isOwnFault (i : Instr) (s : State) (f : Fault) : Prop :=
  match i with
  | .call _ => f = .stackOverflow (encode i) s.ia
  | .ret => f = .stackUnderflow (encode i) s.ia
  | .drw _ _ _ | .ldBcd _ | .storeRegs _ | .loadRegs _ =>
    f = .addressOutOfRange (encode i) s.ia (max s.i.toNat 0x1000)
  | .cls | .jp _ | .seByte _ _ | .sneByte _ _ | .seReg _ _ | .ldByte _ _ | .addByte _ _ | .ldReg _ _ => False
  | .orReg _ _ | .andReg _ _ | .xorReg _ _ | .addReg _ _ | .sub _ _ | .shr _ _ | .subn _ _ | .shl _ _ => False
  | .sneReg _ _ | .ldIndex _ | .jpOffset _ | .rnd _ _ | .skp _ | .sknp _ | .ldFromDelay _ | .ldKey _ => False
  | .ldDelay _ | .ldSound _ | .addIndex _ | .ldFont _ => False

end Sys2Proof.Machine
end

