-- ==== Sys2Proof/Certificates/Slice0/Obligations.lean ====
section
/-! DEFINITION. The statements for the provers. A meaning is stated on the state after its fetch, where pc = ia + 2
(00_scope.md R13); `StepRunsDecodedInstruction` carries it to a step. `Frame` (Safety.lean) says what is left as it was,
memory through the read of one byte. -/

open Sys2Proof Sys2Proof.Machine

/-! ### Encoding -/

/-- Words written out from the spec's encodings and worked examples decode to the instructions they stand for; some
illegal words do not decode (R76, R79 to R83; the examples of 41_ to 45_). -/
def Obligations.SampleWordsDecode : Prop :=
  decodeWord 0x00E0 = some .cls ∧ decodeWord 0x00EE = some .ret ∧ decodeWord 0x1228 = some (.jp 0x228) ∧
    decodeWord 0x2300 = some (.call 0x300) ∧ decodeWord 0x3342 = some (.seByte 3 0x42) ∧
    decodeWord 0x4300 = some (.sneByte 3 0x00) ∧ decodeWord 0x5120 = some (.seReg 1 2) ∧
    decodeWord 0x6A05 = some (.ldByte 10 0x05) ∧ decodeWord 0x7A02 = some (.addByte 10 0x02) ∧
    decodeWord 0x8124 = some (.addReg 1 2) ∧ decodeWord 0x812E = some (.shl 1 2) ∧
    decodeWord 0x9120 = some (.sneReg 1 2) ∧ decodeWord 0xA123 = some (.ldIndex 0x123) ∧
    decodeWord 0xB320 = some (.jpOffset 0x320) ∧ decodeWord 0xC30F = some (.rnd 3 0x0F) ∧
    decodeWord 0xD015 = some (.drw 0 1 5) ∧ decodeWord 0xE59E = some (.skp 5) ∧
    decodeWord 0xF255 = some (.storeRegs 2) ∧ decodeWord 0x0000 = none ∧ decodeWord 0x01E0 = none ∧
    decodeWord 0x5121 = none ∧ decodeWord 0x8128 = none ∧ decodeWord 0xE59F = none

/-- R76: the table has 34 rows, and a word is an instruction of a row exactly when it matches the row's mask and
pattern; a word that matches two rows would have one instruction with two rows, so the rows are disjoint. -/
def Obligations.DecodeAgreesWithOpcodeTable : Prop :=
  opcodeTable.length = 34 ∧ ∀ w : Word,
    (∀ i, decodeWord w = some i → i.row ∈ opcodeTable ∧ i.row.matchesWord w = true) ∧
      ∀ r ∈ opcodeTable, r.matchesWord w = true → ∃ i, decodeWord w = some i ∧ i.row = r

/-- Decoding the two bytes of a well-formed instruction gives it back, every operand at every value its field admits,
and leaves the bytes that follow (30_encoding.md R70 to R76). -/
def Obligations.DecodeOfEncode : Prop :=
  ∀ (i : Instr) (rest : List Byte), i.wf = true → decode (encodeBytes i ++ rest) = .ok (i, rest)

/-- Bytes that decode are the encoding of the instruction they decode to, which is well formed: no bit of a legal word is
ignored, and no two instructions share a word (R77). -/
def Obligations.EncodeOfDecode : Prop :=
  ∀ (bytes rest : List Byte) (i : Instr), decode bytes = .ok (i, rest) →
    bytes = encodeBytes i ++ rest ∧ i.wf = true

/-- Exactly the words of R79 to R83 are illegal; the ten families of R78 have none. -/
def Obligations.IllegalWordsByFamily : Prop :=
  ∀ w : Word, decodeWord w = none ↔
    (family w = 0x0#4 ∧ w ≠ 0x00E0#16 ∧ w ≠ 0x00EE#16) ∨
    ((family w = 0x5#4 ∨ family w = 0x9#4) ∧ fieldN w ≠ 0x0#4) ∨
    (family w = 0x8#4 ∧ fieldN w ∈ [0x8#4, 0x9#4, 0xA#4, 0xB#4, 0xC#4, 0xD#4, 0xF#4]) ∨
    (family w = 0xE#4 ∧ fieldNN w ∉ [0x9E#8, 0xA1#8]) ∨
    (family w = 0xF#4 ∧
      fieldNN w ∉ [0x07#8, 0x0A#8, 0x15#8, 0x18#8, 0x1E#8, 0x29#8, 0x33#8, 0x55#8, 0x65#8])

/-! ### Fetch, step and faults -/

/-- A step of a running core whose bytes at the pc decode to `i` is the execution of `i`, after the waiting inputs have
been taken (log 1) and the pc has advanced by 2 (R101, R109). The inputs change neither the pc nor memory. -/
def Obligations.StepRunsDecodedInstruction : Prop :=
  ∀ (s : State) (i : Instr) (rest : List Byte), s.run = .running → s.pc.toNat ≤ 0xFFE →
    decode (s.readByte s.pc.toNat :: s.readByte (s.pc.toNat + 1) :: rest) = .ok (i, rest) →
      step s = exec i { s.beginCycle with pc := s.pc + 2 } ∧ s.beginCycle.pc = s.pc ∧
        SameMemory s s.beginCycle

/-- R102, with the region of 92_eei_decisions.md D3: a fetch faults exactly when pc > 0xFFE, with the pc in the record;
else it gives the big-endian word at the pc, odd or even (D4), and a pc that is 2 further and does not wrap. -/
def Obligations.FetchFaultsExactlyOutOfRange : Prop :=
  ∀ s : State,
    (0xFFE < s.pc.toNat → fetch s = .fault (.fetchOutOfRange s.pc) ∧
      (s.run = .running → step s = .fault (.fetchOutOfRange s.pc))) ∧
    (s.pc.toNat ≤ 0xFFE → ∃ w t, fetch s = .next (w, t) ∧
      w.toNat = (s.readByte s.pc.toNat).toNat * 256 + (s.readByte (s.pc.toNat + 1)).toNat ∧
      t = { s with pc := t.pc } ∧ t.pc.toNat = s.pc.toNat + 2)

/-- R86: an illegal word raises UnimplementedOpcode with the word and its address, after the fetch has advanced the pc;
it writes nothing else. -/
def Obligations.IllegalWordFaults : Prop :=
  ∀ s : State, s.run = .running → s.pc.toNat ≤ 0xFFE → decodeWord s.fetchedWord = none →
    step s = .fault (.unimplementedOpcode s.fetchedWord s.pc) ∧
      ∀ now rnd, s.cycle now rnd =
        ({ s with now := now, rnd := rnd, pc := s.pc + 2, run := .halted (.unimplementedOpcode s.fetchedWord s.pc) },
          .fault (.unimplementedOpcode s.fetchedWord s.pc))

/-- R232 (92_eei_decisions.md D11; log 4): on a HALTED core a step stops with the recorded fault, `cycle`, `timer_check`
and the key events change nothing, and the reads still answer. -/
def Obligations.HaltedIsTerminal : Prop :=
  ∀ (s : State) (f : Fault), s.run = .halted f →
    step s = .fault f ∧ (∀ now rnd, s.cycle now rnd = (s, .fault f)) ∧ (∀ now, s.timerCheck now = s) ∧
      (∀ k, s.afterKeyEvent (s.keyPress k) = s ∧ s.afterKeyEvent (s.keyRelease k) = s) ∧
      s.readStatus = .halted f ∧ s.faultRecord = some f ∧ s.readDisplay = s.disp ∧ s.readTimers = (s.dt, s.st)

/-- R233 (92_eei_decisions.md D11): a fault of a cycle is precise. The core is HALTED with the record, `ia` is the
address of the failing instruction, and of the cycle only the pc advance of the fetch remains, which a fetch fault has
not made. -/
def Obligations.FaultsArePrecise : Prop :=
  ∀ (s t : State) (now : Nat) (rnd : Byte) (f : Fault), s.run = .running → s.cycle now rnd = (t, .fault f) →
    f.ia = s.pc ∧
      t = { s with
        now := now, rnd := rnd, run := .halted f,
        pc := if f = .fetchOutOfRange s.pc then s.pc else s.pc + 2 }

/-- No instruction is without a meaning, and an instruction can raise no fault but its own, with its word, its address
and the first bad data address in the record (R230, R235). -/
def Obligations.InstructionsRaiseOnlyTheirOwnFault : Prop :=
  ∀ (i : Instr) (s : State), (∀ r, exec i s ≠ .refused r) ∧ ∀ f, exec i s = .fault f → isOwnFault i s f

/-- The step function and the host's `cycle` operation agree: a step whose next input is a cycle answers what that
operation does (R100, R109; log 1). -/
def Obligations.StepIsTheWaitingCycle : Prop :=
  ∀ (s t : State) (now : Nat) (rnd : Byte) (rest : List HostInput) (f : Fault),
    s.run = .running → s.inputs = .cycle now rnd :: rest →
      (step s = .next t ↔ State.cycle { s with inputs := rest } now rnd = (t, .ok)) ∧
        (step s = .fault f ↔ (State.cycle { s with inputs := rest } now rnd).2 = .fault f)

/-! ### The host's side -/

/-- The inputs of a cycle (THE MODEL'S CHOICE, log 1, log 2, log 3; R8, R108): a waiting cycle's reading and random byte
are latched and nothing else changes; where nothing waits the reading is some reading no earlier than the latest and the
random byte is a free value. -/
def Obligations.CycleInputsAreLatched : Prop :=
  (∀ (s : State) (now : Nat) (rnd : Byte) (rest : List HostInput), s.inputs = .cycle now rnd :: rest →
      s.beginCycle = { s with inputs := rest, now := now, rnd := rnd }) ∧
    ∀ s : State, s.inputs = [] → ∃ now, s.now ≤ now ∧
      s.beginCycle = { s with now := now, rnd := Config.freeRandom s.freeIdx, freeIdx := s.freeIdx + 1 }

/-- What the host does between cycles reaches the keypad and the timers, and not the memory, the registers, I, the pc,
the stack, the display, the configuration or the run state (R100, R217, R236). -/
def Obligations.HostInputsReachOnlyKeypadAndTimers : Prop :=
  ∀ s : State, s.beginCycle =
    { s with key := s.beginCycle.key, dt := s.beginCycle.dt, dtLast := s.beginCycle.dtLast, st := s.beginCycle.st,
             stLast := s.beginCycle.stLast, now := s.beginCycle.now, rnd := s.beginCycle.rnd,
             inputs := s.beginCycle.inputs, freeIdx := s.beginCycle.freeIdx }

/-- KEY changes only by key events (R34, R217): a step before which no key event waits leaves every key flag. -/
def Obligations.KeypadChangesOnlyByKeyEvents : Prop :=
  ∀ s t : State, step s = .next t → (∀ k, .keyPress k ∉ s.inputs ∧ .keyRelease k ∉ s.inputs) → t.key = s.key

/-- While the host keeps its duty (R104), the clock never goes back from one step to the next and the duty goes on. -/
def Obligations.ClockNeverGoesBack : Prop :=
  ∀ s t : State, s.dtLast ≤ s.now → s.stLast ≤ s.now → s.hostDuty = true → step s = .next t →
    s.now ≤ t.now ∧ t.hostDuty = true

/-- R211 (the strict comparison is 92_eei_decisions.md D16): a check decrements a timer by 1 and resets its reading when
the timer is nonzero and more than TIMER_PERIOD has elapsed, and else leaves it; the two timers are independent and
nothing else changes but the latest reading. -/
def Obligations.TimerCheckResult : Prop :=
  ∀ (s : State) (now : Nat), s.run = .running →
    (s.timerCheck now).dt.toNat =
        (if s.dt ≠ 0 ∧ s.dtLast + s.cfg.timerPeriod < now then s.dt.toNat - 1 else s.dt.toNat) ∧
      (s.timerCheck now).dtLast = (if s.dt ≠ 0 ∧ s.dtLast + s.cfg.timerPeriod < now then now else s.dtLast) ∧
      (s.timerCheck now).st.toNat =
        (if s.st ≠ 0 ∧ s.stLast + s.cfg.timerPeriod < now then s.st.toNat - 1 else s.st.toNat) ∧
      (s.timerCheck now).stLast = (if s.st ≠ 0 ∧ s.stLast + s.cfg.timerPeriod < now then now else s.stLast) ∧
      s.timerCheck now =
        { s with dt := (s.timerCheck now).dt, dtLast := (s.timerCheck now).dtLast, st := (s.timerCheck now).st,
                 stLast := (s.timerCheck now).stLast, now := now }

/-- R212: two decrements of one timer by checks with nothing between them are more than one TIMER_PERIOD apart, and a
timer at 0 stays at 0. -/
def Obligations.DecrementsAreMoreThanAPeriodApart : Prop :=
  ∀ (s : State) (n1 n2 : Nat), s.run = .running →
    ((s.timerCheck n1).dt ≠ s.dt → ((s.timerCheck n1).timerCheck n2).dt ≠ (s.timerCheck n1).dt →
      s.cfg.timerPeriod < n2 - n1) ∧
    ((s.timerCheck n1).st ≠ s.st → ((s.timerCheck n1).timerCheck n2).st ≠ (s.timerCheck n1).st →
      s.cfg.timerPeriod < n2 - n1) ∧
    (s.dt = 0 → (s.timerCheck n1).dt = 0 ∧ (s.timerCheck n1).dtLast = s.dtLast) ∧
    (s.st = 0 → (s.timerCheck n1).st = 0 ∧ (s.timerCheck n1).stLast = s.stLast)

/-- R215 and R216 (92_eei_decisions.md D18): a key event of a running core sets its one flag; an index above 15 is
rejected and changes nothing. -/
def Obligations.KeyEventResult : Prop :=
  (∀ (s : State) (k : Nat) (down : Bool), s.run = .running → (h : k < 16) →
      s.setKey k down = .ok { s with key := s.key.set k down h }) ∧
    (∀ (s : State) (k : Nat) (down : Bool), 15 < k →
      s.setKey k down = .error .keyIndexOutOfRange ∧ s.afterKeyEvent (s.setKey k down) = s) ∧
    ∀ (s : State) (k : Nat), s.keyPress k = s.setKey k true ∧ s.keyRelease k = s.setKey k false

/-! ### Construction and the invariant -/

/-- R41 and R250 (DT_LAST = ST_LAST = t0 is 92_eei_decisions.md D17): the value of every piece of state after
construction, memory outside the program apart from the image, the font included (R251). `State.reset` is the
construction with the default configuration, an empty image and t0 = 0, which is THE MODEL'S CHOICE (log 5 to log 9). -/
def Obligations.ConstructedState : Prop :=
  construct Config.default (some []) 0 = .ok State.reset ∧
  ∀ (cfg : Config) (image : List Byte) (t0 : Nat) (s : State), construct cfg (some image) t0 = .ok s →
    (∀ r, s.reg r = 0) ∧ s.i = 0 ∧ s.pc = 0x200 ∧ s.sp = 0 ∧ (∀ k : Fin 16, s.stack[k] = 0) ∧
      s.dt = 0 ∧ s.st = 0 ∧ s.dtLast = t0 ∧ s.stLast = t0 ∧ (∀ k : Fin 16, s.key[k] = false) ∧
      (∀ x y, s.cell x y = false) ∧ s.cfg = cfg ∧ s.run = .running ∧ s.faultRecord = none ∧
      (∀ (g : Fin 16) (r : Fin 5), s.readByte (0x050 + 5 * g.val + r.val) = cfg.font[g][r]) ∧
      ∀ a, a < 0x200 → ¬(0x050 ≤ a ∧ a ≤ 0x09F) → s.readByte a = 0

/-- R252: the image lies verbatim at 0x200, memory above it is 0, and with an empty image the program starts on the zero
word, which raises UnimplementedOpcode. -/
def Obligations.ImageIsLoadedVerbatim : Prop :=
  (∀ (cfg : Config) (image : List Byte) (t0 : Nat) (s : State), construct cfg (some image) t0 = .ok s →
      (∀ (k : Nat) (h : k < image.length), s.readByte (0x200 + k) = image[k]) ∧
        ∀ a, 0x200 + image.length ≤ a → s.readByte a = 0) ∧
    ∀ (cfg : Config) (t0 : Nat), ∃ s, construct cfg (some []) t0 = .ok s ∧
      step s = .fault (.unimplementedOpcode 0x0000 0x200)

/-- R253 and R231 (the limit is 92_eei_decisions.md D20): an image that cannot be read or is longer than 3584 bytes fails
the construction; every other image is accepted. -/
def Obligations.LoadErrors : Prop :=
  ∀ (cfg : Config) (t0 : Nat),
    construct cfg none t0 = .error .imageLoadFailed ∧
      ∀ image : List Byte, (3584 < image.length → construct cfg (some image) t0 = .error .imageTooLarge) ∧
        (image.length ≤ 3584 → ∃ s, construct cfg (some image) t0 = .ok s)

/-- The invariant holds at reset. -/
def Obligations.InvariantHoldsAtReset : Prop := State.reset.Inv

/-- The invariant holds of every constructed core with a legal configuration, whatever image it was given. -/
def Obligations.InvariantHoldsAfterConstruct : Prop :=
  ∀ (cfg : Config) (image : Option (List Byte)) (t0 : Nat) (s : State), cfg.wf = true →
    construct cfg image t0 = .ok s → s.Inv

/-- Every step keeps the invariant: memory stays canonical, the core stays RUNNING, the pc stays at most 0x10FE (R25),
the stack holds no address above 0x1000, the configuration stays legal, no timer was set later than the latest reading,
and the host's duty goes on. -/
def Obligations.StepKeepsInvariant : Prop := ∀ s t : State, s.Inv → step s = .next t → t.Inv

/-! ### Control transfer -/

/-- R122: 1NNN; a target above 0xFFE faults at the next fetch. -/
def Obligations.JumpResult : Prop :=
  (∀ w : Word, w &&& 0xF000 = 0x1000 → decodeWord w = some (.jp (fieldNNN w))) ∧
    ∀ (nnn : Word) (s : State), ∃ t, exec (.jp nnn) s = .next t ∧ t.pc = nnn ∧ Frame [] [.pc] s t ∧
      (0xFFE < nnn.toNat → fetch t = .fault (.fetchOutOfRange nnn))

/-- R123: 2NNN pushes pc = ia + 2 and jumps while SP < 16; else StackOverflow, and the cycle that raises it leaves the
stack and SP unchanged. -/
def Obligations.CallResult : Prop :=
  (∀ w : Word, w &&& 0xF000 = 0x2000 → decodeWord w = some (.call (fieldNNN w))) ∧
    ∀ (nnn : Word) (s : State),
      ((h : s.sp.val < 16) → ∃ t, exec (.call nnn) s = .next t ∧ t.stack = s.stack.set s.sp.val s.pc h ∧
        t.sp.val = s.sp.val + 1 ∧ t.pc = nnn ∧ Frame [] [.pc, .stack] s t) ∧
      (16 ≤ s.sp.val → exec (.call nnn) s = .fault (.stackOverflow (encode (.call nnn)) (s.pc - 2))) ∧
      ∀ (now : Nat) (rnd : Byte), s.run = .running → s.pc.toNat ≤ 0xFFE →
        decodeWord s.fetchedWord = some (.call nnn) → 16 ≤ s.sp.val →
          ∃ t, s.cycle now rnd = (t, .fault (.stackOverflow s.fetchedWord s.pc)) ∧ t.stack = s.stack ∧ t.sp = s.sp

/-- R121: 00EE pops the return address, used as it is, and leaves the entry; an address above 0xFFE faults at the next
fetch. With SP = 0, StackUnderflow, and of the cycle that raises it only the advance of the pc and the inputs remain. -/
def Obligations.ReturnResult : Prop :=
  decodeWord 0x00EE = some .ret ∧
    ∀ s : State,
      (∀ k : Fin 16, s.sp.val = k.val + 1 → ∃ t, exec .ret s = .next t ∧ t.sp.val = k.val ∧ t.pc = s.stack[k] ∧
        t.stack = s.stack ∧ Frame [] [.pc, .stack] s t ∧
        (0xFFE < s.stack[k].toNat → fetch t = .fault (.fetchOutOfRange s.stack[k]))) ∧
      (s.sp = 0 → exec .ret s = .fault (.stackUnderflow 0x00EE (s.pc - 2))) ∧
      ∀ (now : Nat) (rnd : Byte), s.run = .running → s.pc.toNat ≤ 0xFFE → s.fetchedWord = 0x00EE → s.sp = 0 →
        s.cycle now rnd =
          ({ s with now := now, rnd := rnd, pc := s.pc + 2, run := .halted (.stackUnderflow 0x00EE s.pc) },
            .fault (.stackUnderflow 0x00EE s.pc))

/-- R129: a return after a call resumes after the call, whatever the subroutine did, as long as it leaves SP and the
entry it returns through as it found them. -/
def Obligations.CallThenReturn : Prop :=
  ∀ (nnn : Word) (s t u : State), exec (.call nnn) s = .next t → u.sp = t.sp →
    (∀ k : Fin 16, k.val = s.sp.val → u.stack[k] = t.stack[k]) →
      ∃ v, exec .ret u = .next v ∧ v.pc = s.pc ∧ v.sp = s.sp

/-- R124 and R125: 3XNN skips when V[X] = NN, 4XNN when it does not; the skip adds 2 to the pc, and a pc above 0xFFE
faults at the next fetch. -/
def Obligations.SkipOnImmediate : Prop :=
  (∀ w : Word, w &&& 0xF000 = 0x3000 → decodeWord w = some (.seByte (fieldX w) (fieldNN w))) ∧
    (∀ w : Word, w &&& 0xF000 = 0x4000 → decodeWord w = some (.sneByte (fieldX w) (fieldNN w))) ∧
    ∀ (x : Reg) (nn : Byte) (s : State),
      (∃ t, exec (.seByte x nn) s = .next t ∧ t.pc = (if s.reg x = nn then s.pc + 2 else s.pc) ∧
        Frame [] [.pc] s t ∧ (0xFFE < t.pc.toNat → fetch t = .fault (.fetchOutOfRange t.pc))) ∧
      ∃ t, exec (.sneByte x nn) s = .next t ∧ t.pc = (if s.reg x ≠ nn then s.pc + 2 else s.pc) ∧
        Frame [] [.pc] s t ∧ (0xFFE < t.pc.toNat → fetch t = .fault (.fetchOutOfRange t.pc))

/-- R126 and R127: 5XY0 skips when V[X] = V[Y], 9XY0 when not; the low nibble of the word must be 0. -/
def Obligations.SkipOnRegister : Prop :=
  (∀ w : Word, w &&& 0xF00F = 0x5000 → decodeWord w = some (.seReg (fieldX w) (fieldY w))) ∧
    (∀ w : Word, w &&& 0xF00F = 0x9000 → decodeWord w = some (.sneReg (fieldX w) (fieldY w))) ∧
    (∀ w : Word, family w = 0x5 ∨ family w = 0x9 → fieldN w ≠ 0 → decodeWord w = none) ∧
    ∀ (x y : Reg) (s : State),
      (∃ t, exec (.seReg x y) s = .next t ∧ t.pc = (if s.reg x = s.reg y then s.pc + 2 else s.pc) ∧
        Frame [] [.pc] s t) ∧
      ∃ t, exec (.sneReg x y) s = .next t ∧ t.pc = (if s.reg x ≠ s.reg y then s.pc + 2 else s.pc) ∧
        Frame [] [.pc] s t

/-- R201 and R202: EX9E skips when the key of the low nibble of V[X] is pressed, EXA1 when it is not. -/
def Obligations.SkipOnKey : Prop :=
  (∀ w : Word, w &&& 0xF0FF = 0xE09E → decodeWord w = some (.skp (fieldX w))) ∧
    (∀ w : Word, w &&& 0xF0FF = 0xE0A1 → decodeWord w = some (.sknp (fieldX w))) ∧
    ∀ (x : Reg) (s : State) (k : Fin 16), k.val = (s.reg x).toNat % 16 →
      (∃ t, exec (.skp x) s = .next t ∧ t.pc = (if s.key[k] = true then s.pc + 2 else s.pc) ∧
        Frame [] [.pc] s t) ∧
      ∃ t, exec (.sknp x) s = .next t ∧ t.pc = (if s.key[k] = true then s.pc else s.pc + 2) ∧
        Frame [] [.pc] s t

/-- R131 (the `superchip` base is 92_eei_decisions.md D13, the unmasked sum D31): BNNN jumps to NNN + V[0], or NNN + V[X]
with X the top nibble of NNN; the sum of a well-formed instruction is exact. -/
def Obligations.JumpOffsetResult : Prop :=
  ∀ (nnn : Word) (s : State), ∃ t, exec (.jpOffset nnn) s = .next t ∧
    (s.cfg.quirkJump = .original → t.pc = nnn + (s.reg 0).setWidth 16) ∧
    (s.cfg.quirkJump = .superchip → ∀ x : Reg, x.val = nnn.toNat / 256 % 16 → t.pc = nnn + (s.reg x).setWidth 16) ∧
    ((Instr.jpOffset nnn).wf = true → nnn.toNat ≤ t.pc.toNat ∧ t.pc.toNat ≤ nnn.toNat + 0xFF) ∧
    Frame [] [.pc] s t

/-! ### Registers and ALU -/

/-- R148, R149 and R150: 6XNN, 7XNN (the sum mod 256, VF not touched but as destination) and 8XY0 (under either shift
quirk). -/
def Obligations.LoadAndAddImmediate : Prop :=
  (∀ w : Word, w &&& 0xF000 = 0x6000 → decodeWord w = some (.ldByte (fieldX w) (fieldNN w))) ∧
    (∀ w : Word, w &&& 0xF000 = 0x7000 → decodeWord w = some (.addByte (fieldX w) (fieldNN w))) ∧
    (∀ w : Word, w &&& 0xF00F = 0x8000 → decodeWord w = some (.ldReg (fieldX w) (fieldY w))) ∧
    ∀ (x y : Reg) (nn : Byte) (s : State),
      (∃ t, exec (.ldByte x nn) s = .next t ∧ t.reg x = nn ∧ Frame [x] [] s t) ∧
      (∃ t, exec (.addByte x nn) s = .next t ∧ (t.reg x).toNat = ((s.reg x).toNat + nn.toNat) % 256 ∧
        Frame [x] [] s t) ∧
      ∃ t, exec (.ldReg x y) s = .next t ∧ t.reg x = s.reg y ∧ Frame [x] [] s t

/-- R151, R152 and R153 (VF unwritten is 92_eei_decisions.md D26): OR, AND and XOR, bit by bit; VF only as
destination. -/
def Obligations.LogicResult : Prop :=
  ∀ (x y : Reg) (s : State),
    (∃ t, exec (.orReg x y) s = .next t ∧ Frame [x] [] s t ∧
      ∀ k, (t.reg x).getLsbD k = ((s.reg x).getLsbD k || (s.reg y).getLsbD k)) ∧
    (∃ t, exec (.andReg x y) s = .next t ∧ Frame [x] [] s t ∧
      ∀ k, (t.reg x).getLsbD k = ((s.reg x).getLsbD k && (s.reg y).getLsbD k)) ∧
    ∃ t, exec (.xorReg x y) s = .next t ∧ Frame [x] [] s t ∧
      ∀ k, (t.reg x).getLsbD k = ((s.reg x).getLsbD k ^^ (s.reg y).getLsbD k)

/-- R154 (operands first, flag last: 92_eei_decisions.md D7, D8): 8XY4 gives the sum mod 256 and the carry; with X = F
the carry is what VF holds. -/
def Obligations.AddWithCarryResult : Prop :=
  ∀ (x y : Reg) (s : State), ∃ t, exec (.addReg x y) s = .next t ∧
    (x ≠ VF → (t.reg x).toNat = ((s.reg x).toNat + (s.reg y).toNat) % 256) ∧
    (t.reg VF).toNat = (if 256 ≤ (s.reg x).toNat + (s.reg y).toNat then 1 else 0) ∧ Frame [x, VF] [] s t

/-- R155 and R157 (92_eei_decisions.md D7, D8): 8XY5 and 8XY7 give the difference mod 256, and VF = 1 exactly when there
is no borrow; with X = F the flag is what VF holds. -/
def Obligations.SubtractResult : Prop :=
  ∀ (x y : Reg) (s : State),
    (∃ t, exec (.sub x y) s = .next t ∧
      (x ≠ VF → (t.reg x).toNat = ((s.reg x).toNat + 256 - (s.reg y).toNat) % 256) ∧
      (t.reg VF).toNat = (if (s.reg y).toNat ≤ (s.reg x).toNat then 1 else 0) ∧ Frame [x, VF] [] s t) ∧
    ∃ t, exec (.subn x y) s = .next t ∧
      (x ≠ VF → (t.reg x).toNat = ((s.reg y).toNat + 256 - (s.reg x).toNat) % 256) ∧
      (t.reg VF).toNat = (if (s.reg x).toNat ≤ (s.reg y).toNat then 1 else 0) ∧ Frame [x, VF] [] s t

/-- R156, R158 and R142 (92_eei_decisions.md D7, D8, D33): 8XY6 and 8XYE shift by one bit the source that QUIRK_SHIFT
selects, and VF is the bit shifted out. -/
def Obligations.ShiftResult : Prop :=
  ∀ (x y : Reg) (s : State) (src : Byte), src = (if s.cfg.quirkShift = .legacy then s.reg y else s.reg x) →
    (∃ t, exec (.shr x y) s = .next t ∧ (x ≠ VF → (t.reg x).toNat = src.toNat / 2) ∧
      (t.reg VF).toNat = src.toNat % 2 ∧ Frame [x, VF] [] s t) ∧
    ∃ t, exec (.shl x y) s = .next t ∧ (x ≠ VF → (t.reg x).toNat = src.toNat * 2 % 256) ∧
      (t.reg VF).toNat = src.toNat / 128 ∧ Frame [x, VF] [] s t

/-- R159 (92_eei_decisions.md D15): CXNN gives the cycle's random byte masked by NN, whatever that byte is. -/
def Obligations.RandomResult : Prop :=
  ∀ (x : Reg) (nn r : Byte) (s : State), s.rnd = r →
    ∃ t, exec (.rnd x nn) s = .next t ∧ t.reg x = r &&& nn ∧ Frame [x] [] s t

/-! ### Index register and memory -/

/-- R172 and R174: ANNN, and FX29, whose glyph address lies in 0x050 to 0x09B. -/
def Obligations.SetIndexResult : Prop :=
  (∀ w : Word, w &&& 0xF000 = 0xA000 → decodeWord w = some (.ldIndex (fieldNNN w))) ∧
    (∀ w : Word, w &&& 0xF0FF = 0xF029 → decodeWord w = some (.ldFont (fieldX w))) ∧
    (∀ (nnn : Word) (s : State), ∃ t, exec (.ldIndex nnn) s = .next t ∧ t.i = nnn ∧ Frame [] [.index] s t) ∧
    ∀ (x : Reg) (s : State), ∃ t, exec (.ldFont x) s = .next t ∧
      t.i.toNat = 0x050 + 5 * ((s.reg x).toNat % 16) ∧ t.i.toNat ≤ 0x09B ∧ Frame [] [.index] s t

/-- R173 (16-bit wrap and VF: 92_eei_decisions.md D6, D25): FX1E adds mod 2^16, without a check or a flag. -/
def Obligations.AddIndexResult : Prop :=
  ∀ (x : Reg) (s : State), ∃ t, exec (.addIndex x) s = .next t ∧
    t.i.toNat = (s.i.toNat + (s.reg x).toNat) % 65536 ∧ Frame [] [.index] s t

/-- R175 (the address check is 92_eei_decisions.md D5): FX33 stores the three decimal digits at I, I+1 and I+2 and no
other byte; where one of them lies above 0xFFF it faults with the first bad address and writes nothing. -/
def Obligations.BcdResult : Prop :=
  ∀ (x : Reg) (s : State),
    (s.memOk → s.i.toNat + 2 ≤ 0xFFF → ∃ t, exec (.ldBcd x) s = .next t ∧
      (t.readByte s.i.toNat).toNat = (s.reg x).toNat / 100 ∧
      (t.readByte (s.i.toNat + 1)).toNat = (s.reg x).toNat / 10 % 10 ∧
      (t.readByte (s.i.toNat + 2)).toNat = (s.reg x).toNat % 10 ∧
      SameMemoryBut s.i.toNat 3 s t ∧ t.memOk ∧ Frame [] [.memory] s t) ∧
    (0xFFF < s.i.toNat + 2 →
      exec (.ldBcd x) s = .fault (.addressOutOfRange (encode (.ldBcd x)) (s.pc - 2) (max s.i.toNat 0x1000)))

/-- R177 and R176 (92_eei_decisions.md D5, D14): FX55 stores V0 to VX at I to I+X and no other byte, and moves I past
them under QUIRK_INDEX_INC = yes alone; out of range it faults and writes nothing. -/
def Obligations.StoreRegistersResult : Prop :=
  ∀ (x : Reg) (s : State),
    (s.memOk → s.i.toNat + x.val ≤ 0xFFF → ∃ t, exec (.storeRegs x) s = .next t ∧
      (∀ r : Reg, r ≤ x → t.readByte (s.i.toNat + r.val) = s.reg r) ∧
      SameMemoryBut s.i.toNat (x.val + 1) s t ∧ t.memOk ∧
      t.i.toNat = (if s.cfg.quirkIndexInc = .yes then (s.i.toNat + x.val + 1) % 65536 else s.i.toNat) ∧
      Frame [] [.memory, .index] s t) ∧
    (0xFFF < s.i.toNat + x.val →
      exec (.storeRegs x) s =
        .fault (.addressOutOfRange (encode (.storeRegs x)) (s.pc - 2) (max s.i.toNat 0x1000)))

/-- R178 and R176 (92_eei_decisions.md D5, D14): FX65 loads V0 to VX from I to I+X and no other register, memory
unchanged, and moves I past them under QUIRK_INDEX_INC = yes alone; out of range it faults and writes nothing. -/
def Obligations.LoadRegistersResult : Prop :=
  ∀ (x : Reg) (s : State),
    (s.i.toNat + x.val ≤ 0xFFF → ∃ t, exec (.loadRegs x) s = .next t ∧
      (∀ r : Reg, t.reg r = if r ≤ x then s.readByte (s.i.toNat + r.val) else s.reg r) ∧
      t.i.toNat = (if s.cfg.quirkIndexInc = .yes then (s.i.toNat + x.val + 1) % 65536 else s.i.toNat) ∧
      Frame (regsUpTo x) [.index] s t) ∧
    (0xFFF < s.i.toNat + x.val →
      exec (.loadRegs x) s =
        .fault (.addressOutOfRange (encode (.loadRegs x)) (s.pc - 2) (max s.i.toNat 0x1000)))

/-- R179: storing V0 to VX and loading them back from the same address into a zeroed register file restores them, under
either index quirk once I is set back. -/
def Obligations.StoreThenLoadRestores : Prop :=
  ∀ (x : Reg) (s t u : State), s.memOk → exec (.storeRegs x) s = .next t →
    (∀ a, u.readByte a = t.readByte a) → u.i = s.i → (∀ r, u.reg r = 0) →
      ∃ v, exec (.loadRegs x) u = .next v ∧ ∀ r, v.reg r = if r ≤ x then s.reg r else 0

/-- R65: a word that FX55 has stored is what the next fetch at its address reads. -/
def Obligations.StoredCodeIsFetched : Prop :=
  ∀ (x r r' : Reg) (s t : State), s.memOk → exec (.storeRegs x) s = .next t → r'.val = r.val + 1 → r' ≤ x →
    ∃ u, fetch { t with pc := s.i + BitVec.ofNat 16 r.val } = .next (wordOfBytes (s.reg r) (s.reg r'), u)

/-! ### Display -/

/-- R191: 00E0 sets every cell false; VF is not written. -/
def Obligations.ClearScreenResult : Prop :=
  decodeWord 0x00E0 = some .cls ∧
    ∀ s : State, ∃ t, exec .cls s = .next t ∧ (∀ x y, t.cell x y = false) ∧ Frame [] [.display] s t

/-- R192 and R193 (92_eei_decisions.md D9, D34): DXYN inverts exactly the cells that the sprite's 1 bits cover on the
canvas, clipped at its edges, and writes nothing but the display and VF. -/
def Obligations.DrawFlipsCoveredCells : Prop :=
  ∀ (x y : Reg) (n : Nat) (s : State), drawInRange y n s →
    ∃ t, exec (.drw x y n) s = .next t ∧
      (∀ cx cy, t.cell cx cy = (s.cell cx cy ^^ drawCovers x y n s cx cy)) ∧ Frame [VF] [.display] s t

/-- R192 and R194 (92_eei_decisions.md D9, D34): after DXYN, VF is 1 if a lit cell was covered, and else 0, also with
N = 0. -/
def Obligations.DrawSetsCollisionFlag : Prop :=
  ∀ (x y : Reg) (n : Nat) (s t : State), exec (.drw x y n) s = .next t →
    ((∃ cx cy, drawCovers x y n s cx cy = true ∧ s.cell cx cy = true) → t.reg VF = 1) ∧
      ((¬∃ cx cy, drawCovers x y n s cx cy = true ∧ s.cell cx cy = true) → t.reg VF = 0)

/-- R192 and R170 (92_eei_decisions.md D5, D9): DXYN faults where the byte of a drawn row lies above 0xFFF; rows skipped
at the bottom edge cannot fault. -/
def Obligations.DrawFaultsOutOfRange : Prop :=
  ∀ (x y : Reg) (n : Nat) (s : State), ¬drawInRange y n s →
    exec (.drw x y n) s =
      .fault (.addressOutOfRange (encode (.drw x y n)) (s.pc - 2) (max s.i.toNat 0x1000))

/-- R194: drawing the same sprite again at the same place restores the display, and the second draw's VF is 1 exactly
when a covered cell was clear before the first. -/
def Obligations.DrawTwiceRestores : Prop :=
  ∀ (x y : Reg) (n : Nat) (s t : State), exec (.drw x y n) s = .next t →
    spriteColumn x t = spriteColumn x s → spriteRow y t = spriteRow y s →
      ∃ u, exec (.drw x y n) t = .next u ∧ SameDisplay s u ∧
        (u.reg VF = 1 ↔ ∃ cx cy, drawCovers x y n s cx cy = true ∧ s.cell cx cy = false)

/-! ### Keypad and timers -/

/-- R203 (level-sensitive: 92_eei_decisions.md D27): FX0A stores the lowest-indexed pressed key; with none pressed the pc
goes back to the instruction and nothing else changes. -/
def Obligations.KeyWaitResult : Prop :=
  ∀ (x : Reg) (s : State),
    ((∀ k : Fin 16, s.key[k] = false) →
      ∃ t, exec (.ldKey x) s = .next t ∧ t.pc = s.pc - 2 ∧ Frame [] [.pc] s t) ∧
    ∀ k : Fin 16, s.key[k] = true → (∀ j : Fin 16, j < k → s.key[j] = false) →
      ∃ t, exec (.ldKey x) s = .next t ∧ (t.reg x).toNat = k.val ∧ Frame [x] [] s t

/-- R204: FX07 reads DT and changes nothing else. -/
def Obligations.ReadDelayTimerResult : Prop :=
  (∀ w : Word, w &&& 0xF0FF = 0xF007 → decodeWord w = some (.ldFromDelay (fieldX w))) ∧
    ∀ (x : Reg) (s : State), ∃ t, exec (.ldFromDelay x) s = .next t ∧ t.reg x = s.dt ∧ Frame [x] [] s t

/-- R205 and R206 (the reading stored is 92_eei_decisions.md D30): FX15 and FX18 set a timer and its reading. -/
def Obligations.SetTimerResult : Prop :=
  ∀ (x : Reg) (s : State),
    (∃ t, exec (.ldDelay x) s = .next t ∧ t.dt = s.reg x ∧ t.dtLast = s.now ∧ Frame [] [.delay] s t) ∧
    ∃ t, exec (.ldSound x) s = .next t ∧ t.st = s.reg x ∧ t.stLast = s.now ∧ Frame [] [.sound] s t

/-! ### Over all instructions -/

/-- Every instruction writes only the registers of R22 and the parts of the state that R24, R27, R31, R32, R35 and R51
give it, and of memory, the stack and the display only the bytes from I on that it stores, the entry it pushes and the
cells it clears or its sprite covers; SP moves by one in 2NNN and 00EE. None writes the keypad, the configuration, RUN or
the host's inputs (R9, R34, R37). -/
def Obligations.EveryInstructionKeepsItsFrame : Prop :=
  ∀ (i : Instr) (s t : State), exec i s = .next t →
    Frame (regsWritten i s) (partsWritten i s) s t ∧
      SameMemoryBut s.i.toNat (bytesStored i) s t ∧
      (∀ k : Fin 16, stackEntryWritten i s k = false → t.stack[k] = s.stack[k]) ∧
      (∀ nnn, i = .call nnn → t.sp.val = s.sp.val + 1) ∧ (i = .ret → t.sp.val + 1 = s.sp.val) ∧
      ∀ cx cy, cellWritten i s cx cy = false → t.cell cx cy = s.cell cx cy

/-- R24: how each instruction leaves the pc. -/
def Obligations.PcAfterExecute : Prop :=
  ∀ (i : Instr) (s t : State), exec i s = .next t → t.pc = pcAfter i s

/-- R31: only 2NNN and 00EE touch SP and STACK. Every other instruction does the same whatever they hold, and leaves
them. -/
def Obligations.OnlyCallAndReturnTouchTheStack : Prop :=
  ∀ (i : Instr) (s : State) (stack : Vector Word 16) (sp : Fin 17), i ≠ .ret → (∀ nnn, i ≠ .call nnn) →
    exec i { s with stack := stack, sp := sp } = mapNext (fun t => { t with stack := stack, sp := sp }) (exec i s)

/-- R190: the display is written only by 00E0 and DXYN. -/
def Obligations.OnlyClearAndDrawWriteTheDisplay : Prop :=
  ∀ (i : Instr) (s t : State), exec i s = .next t → i ≠ .cls → (∀ x y n, i ≠ .drw x y n) → t.disp = s.disp

/-- R113 and R104: the random byte of a cycle matters to CXNN alone, and its clock reading to FX15 and FX18 alone; every
other instruction does the same whatever they are. -/
def Obligations.CycleInputsMatterOnlyToTheirReaders : Prop :=
  ∀ (i : Instr) (s : State),
    (∀ b : Byte, (∀ x nn, i ≠ .rnd x nn) →
      exec i { s with rnd := b } = mapNext (fun t => { t with rnd := b }) (exec i s)) ∧
    ∀ now : Nat, (∀ x, i ≠ .ldDelay x) → (∀ x, i ≠ .ldSound x) →
      exec i { s with now := now } = mapNext (fun t => { t with now := now }) (exec i s)

/-! ### Construction arguments -/

/-- R7 and R9 (TIMER_PERIOD: 92_eei_decisions.md D16): the defaults of the construction arguments. TIMER_HZ is 60, and
TIMER_PERIOD is 1/TIMER_HZ seconds in clock units. The clock unit and the rounding are free values, and a period shorter
than one unit is one unit: THE MODEL'S CHOICE (log 6, log 7). -/
def Obligations.DefaultParameters : Prop :=
  (Config.default.timerHz = ⟨60, 1⟩ ∧ Config.default = Config.ofTimerHz ⟨60, 1⟩ ∧
      Config.default.quirkShift = .modern ∧ Config.default.quirkJump = .original ∧
      Config.default.quirkIndexInc = .no ∧ Config.default.font = Config.defaultFont ∧ Config.default.wf = true) ∧
    ∃ units : Rate, units.positive = true ∧ ∀ hz : Rate, hz.positive = true →
      (Config.ofTimerHz hz).timerHz = hz ∧ (Config.ofTimerHz hz).wf = true ∧
      (units.den * hz.num ≤ units.num * hz.den →
        units.num * hz.den < ((Config.ofTimerHz hz).timerPeriod + 1) * (units.den * hz.num) ∧
          (Config.ofTimerHz hz).timerPeriod * (units.den * hz.num) < units.num * hz.den + units.den * hz.num) ∧
      (units.num * hz.den < units.den * hz.num → (Config.ofTimerHz hz).timerPeriod = 1)
end

