-- ==== Sys2Proof/Laws/Config.lean ====
section
/-! SUPPORT. The construction arguments: a default configuration is legal, and its tick period is 1/TIMER_HZ seconds to
the whole clock unit (00_scope.md R7). -/

namespace Sys2Proof

@[simp] theorem Rate.positive_ofFree (r : Rate) : r.ofFree.positive = true := by
  simp [Rate.positive, Rate.ofFree]

theorem Rate.positive_iff {r : Rate} : r.positive = true ↔ 0 < r.num ∧ 0 < r.den := by
  simp [Rate.positive]

/-- A period is positive (R7). -/
theorem Config.periodOf_pos (units hz : Rate) (up : Bool) : 0 < Config.periodOf units hz up :=
  Nat.lt_of_lt_of_le Nat.one_pos (Nat.le_max_left 1 _)

/-- A quotient rounded either way is less than one away from the exact one. -/
theorem Config.rounded_near {n d : Nat} (hd : 0 < d) (up : Bool) :
    n < ((if up then (n + d - 1) / d else n / d) + 1) * d ∧
      (if up then (n + d - 1) / d else n / d) * d < n + d := by
  cases up
  · have h1 := Nat.div_add_mod n d
    have h2 := Nat.mod_lt n hd
    simp only [Bool.false_eq_true, if_false, Nat.add_mul, Nat.mul_comm (n / d)]
    omega
  · have h1 := Nat.div_add_mod (n + d - 1) d
    have h2 := Nat.mod_lt (n + d - 1) hd
    simp only [if_true, Nat.add_mul, Nat.mul_comm ((n + d - 1) / d)]
    omega

/-- A configuration for a positive timer rate is a legal one (R42). -/
theorem Config.wf_ofTimerHz {hz : Rate} (h : hz.positive = true) : (Config.ofTimerHz hz).wf = true := by
  simp [Config.wf, Config.ofTimerHz, h, Config.periodOf_pos]

end Sys2Proof
end

