-- ==== Sys2Proof/Laws/Decode.lean ====
section
/-! SUPPORT. The fields of the words that the encoder builds, and the words that the fields of a word build. -/

namespace Sys2Proof

/-! ### The fields as numbers -/

theorem family_toNat (w : Word) : (family w).toNat = w.toNat / 0x1000 := by
  simp only [family, BitVec.extractLsb'_toNat, Nat.shiftRight_eq_div_pow]; omega

theorem fieldX_val (w : Word) : (fieldX w).val = w.toNat / 0x100 % 0x10 := by
  change (w.extractLsb' 8 4).toNat = _
  simp [BitVec.extractLsb'_toNat, Nat.shiftRight_eq_div_pow]

theorem fieldY_val (w : Word) : (fieldY w).val = w.toNat / 0x10 % 0x10 := by
  change (w.extractLsb' 4 4).toNat = _
  simp [BitVec.extractLsb'_toNat, Nat.shiftRight_eq_div_pow]

theorem fieldN_toNat (w : Word) : (fieldN w).toNat = w.toNat % 0x10 := by
  simp [fieldN, BitVec.extractLsb'_toNat]

theorem fieldNN_toNat (w : Word) : (fieldNN w).toNat = w.toNat % 0x100 := by
  simp [fieldNN, BitVec.extractLsb'_toNat]

theorem fieldNNN_toNat (w : Word) : (fieldNNN w).toNat = w.toNat % 0x1000 := by
  simp only [fieldNNN, BitVec.toNat_setWidth, BitVec.extractLsb'_toNat, Nat.shiftRight_zero]; omega

/-! ### The fields of an encoded word -/

section forms

variable {f : Nat} (hf : f < 16)

include hf

theorem formNNN_toNat (nnn : Word) : (formNNN f nnn).toNat = f * 0x1000 + nnn.toNat % 0x1000 := by
  simp only [formNNN, BitVec.toNat_ofNat]; omega

theorem formXNN_toNat (x : Reg) (nn : Byte) : (formXNN f x nn).toNat = f * 0x1000 + x.val * 0x100 + nn.toNat := by
  simp only [formXNN, BitVec.toNat_ofNat]; omega

theorem formXYN_toNat (x y : Reg) (n : Nat) :
    (formXYN f x y n).toNat = f * 0x1000 + x.val * 0x100 + y.val * 0x10 + n % 0x10 := by
  simp only [formXYN, BitVec.toNat_ofNat]; omega

theorem family_formNNN (nnn : Word) : family (formNNN f nnn) = BitVec.ofNat 4 f := by
  apply BitVec.eq_of_toNat_eq
  rw [family_toNat, formNNN_toNat hf, BitVec.toNat_ofNat]; omega

theorem family_formXNN (x : Reg) (nn : Byte) : family (formXNN f x nn) = BitVec.ofNat 4 f := by
  apply BitVec.eq_of_toNat_eq
  rw [family_toNat, formXNN_toNat hf, BitVec.toNat_ofNat]; omega

theorem family_formXYN (x y : Reg) (n : Nat) : family (formXYN f x y n) = BitVec.ofNat 4 f := by
  apply BitVec.eq_of_toNat_eq
  rw [family_toNat, formXYN_toNat hf, BitVec.toNat_ofNat]; omega

theorem fieldNNN_formNNN {nnn : Word} (h : fitsNNN nnn = true) : fieldNNN (formNNN f nnn) = nnn := by
  apply BitVec.eq_of_toNat_eq
  rw [fieldNNN_toNat, formNNN_toNat hf]
  simp only [fitsNNN, decide_eq_true_eq] at h; omega

theorem fieldX_formXNN (x : Reg) (nn : Byte) : fieldX (formXNN f x nn) = x := by
  apply Fin.ext; rw [fieldX_val, formXNN_toNat hf]; omega

theorem fieldNN_formXNN (x : Reg) (nn : Byte) : fieldNN (formXNN f x nn) = nn := by
  apply BitVec.eq_of_toNat_eq; rw [fieldNN_toNat, formXNN_toNat hf]; omega

theorem fieldX_formXYN (x y : Reg) (n : Nat) : fieldX (formXYN f x y n) = x := by
  apply Fin.ext; rw [fieldX_val, formXYN_toNat hf]; omega

theorem fieldY_formXYN (x y : Reg) (n : Nat) : fieldY (formXYN f x y n) = y := by
  apply Fin.ext; rw [fieldY_val, formXYN_toNat hf]; omega

theorem fieldN_formXYN (x y : Reg) (n : Nat) : fieldN (formXYN f x y n) = BitVec.ofNat 4 n := by
  apply BitVec.eq_of_toNat_eq; rw [fieldN_toNat, formXYN_toNat hf, BitVec.toNat_ofNat]; omega

end forms

/-! ### A word from its fields -/

theorem formNNN_fields (w : Word) : formNNN (family w).toNat (fieldNNN w) = w := by
  apply BitVec.eq_of_toNat_eq
  rw [formNNN_toNat (family w).isLt, family_toNat, fieldNNN_toNat]; omega

theorem formXNN_fields (w : Word) : formXNN (family w).toNat (fieldX w) (fieldNN w) = w := by
  apply BitVec.eq_of_toNat_eq
  rw [formXNN_toNat (family w).isLt, family_toNat, fieldX_val, fieldNN_toNat]; omega

theorem formXYN_fields (w : Word) : formXYN (family w).toNat (fieldX w) (fieldY w) (fieldN w).toNat = w := by
  apply BitVec.eq_of_toNat_eq
  rw [formXYN_toNat (family w).isLt, family_toNat, fieldX_val, fieldY_val, fieldN_toNat]; omega

theorem fitsNNN_fieldNNN (w : Word) : fitsNNN (fieldNNN w) = true := by
  simp only [fitsNNN, decide_eq_true_eq, fieldNNN_toNat]; omega

theorem fitsN_fieldN (w : Word) : fitsN (fieldN w).toNat = true := by
  simp only [fitsN, decide_eq_true_eq, fieldN_toNat]; omega

/-! ### The fields that a mask keeps (R76) -/

theorem family_and_F000 (w : Word) : family (w &&& 0xF000#16) = family w := by
  apply BitVec.eq_of_getLsbD_eq
  intro k hk
  interval_cases k <;> simp [family]

theorem family_and_F00F (w : Word) : family (w &&& 0xF00F#16) = family w := by
  apply BitVec.eq_of_getLsbD_eq
  intro k hk
  interval_cases k <;> simp [family]

theorem family_and_F0FF (w : Word) : family (w &&& 0xF0FF#16) = family w := by
  apply BitVec.eq_of_getLsbD_eq
  intro k hk
  interval_cases k <;> simp [family]

theorem fieldN_and_F00F (w : Word) : fieldN (w &&& 0xF00F#16) = fieldN w := by
  apply BitVec.eq_of_getLsbD_eq
  intro k hk
  interval_cases k <;> simp [fieldN]

theorem fieldNN_and_F0FF (w : Word) : fieldNN (w &&& 0xF0FF#16) = fieldNN w := by
  apply BitVec.eq_of_getLsbD_eq
  intro k hk
  interval_cases k <;> simp [fieldNN]

/-- The family of a word that matches a row with mask F000. -/
theorem family_of_F000 {w p : Word} (h : w &&& 0xF000#16 = p) : family w = family p := by
  rw [← family_and_F000, h]

/-- The family and the low nibble of a word that matches a row with mask F00F. -/
theorem fields_of_F00F {w p : Word} (h : w &&& 0xF00F#16 = p) : family w = family p ∧ fieldN w = fieldN p := by
  rw [← family_and_F00F, ← fieldN_and_F00F, h]; exact ⟨rfl, rfl⟩

/-- The family and the low byte of a word that matches a row with mask F0FF. -/
theorem fields_of_F0FF {w p : Word} (h : w &&& 0xF0FF#16 = p) : family w = family p ∧ fieldNN w = fieldNN p := by
  rw [← family_and_F0FF, ← fieldNN_and_F0FF, h]; exact ⟨rfl, rfl⟩

/-! ### Bytes and words -/

theorem wordOfBytes_toNat (hi lo : Byte) : (wordOfBytes hi lo).toNat = hi.toNat * 0x100 + lo.toNat := by
  rw [wordOfBytes, BitVec.toNat_append, ← Nat.shiftLeft_add_eq_or_of_lt lo.isLt, Nat.shiftLeft_eq]

@[simp] theorem wordOfBytes_bytes (w : Word) : wordOfBytes (highByte w) (lowByte w) = w := by
  apply BitVec.eq_of_toNat_eq
  rw [wordOfBytes_toNat, highByte, lowByte, BitVec.extractLsb'_toNat, BitVec.extractLsb'_toNat,
    Nat.shiftRight_eq_div_pow, Nat.shiftRight_zero]
  omega

@[simp] theorem highByte_wordOfBytes (hi lo : Byte) : highByte (wordOfBytes hi lo) = hi := by
  apply BitVec.eq_of_toNat_eq
  rw [highByte, BitVec.extractLsb'_toNat, wordOfBytes_toNat, Nat.shiftRight_eq_div_pow]
  omega

@[simp] theorem lowByte_wordOfBytes (hi lo : Byte) : lowByte (wordOfBytes hi lo) = lo := by
  apply BitVec.eq_of_toNat_eq
  rw [lowByte, BitVec.extractLsb'_toNat, wordOfBytes_toNat, Nat.shiftRight_zero]
  omega

/-- Decoding two bytes is decoding their word. -/
theorem decode_two (hi lo : Byte) (rest : List Byte) :
    decode (hi :: lo :: rest) = match decodeWord (wordOfBytes hi lo) with
      | some i => .ok (i, rest)
      | none => .error (.unimplementedOpcode (wordOfBytes hi lo)) := rfl

/-! ### The instruction of a word that matches a row of R76 -/

theorem decodeWord_jp {w : Word} (h : w &&& 0xF000#16 = 0x1000#16) : decodeWord w = some (.jp (fieldNNN w)) := by
  have hf : family w = 0x1#4 := (family_of_F000 h).trans (by decide)
  simp [decodeWord, hf]

theorem decodeWord_call {w : Word} (h : w &&& 0xF000#16 = 0x2000#16) : decodeWord w = some (.call (fieldNNN w)) := by
  have hf : family w = 0x2#4 := (family_of_F000 h).trans (by decide)
  simp [decodeWord, hf]

theorem decodeWord_seByte {w : Word} (h : w &&& 0xF000#16 = 0x3000#16) : decodeWord w = some (.seByte (fieldX w) (fieldNN w)) := by
  have hf : family w = 0x3#4 := (family_of_F000 h).trans (by decide)
  simp [decodeWord, hf]

theorem decodeWord_sneByte {w : Word} (h : w &&& 0xF000#16 = 0x4000#16) : decodeWord w = some (.sneByte (fieldX w) (fieldNN w)) := by
  have hf : family w = 0x4#4 := (family_of_F000 h).trans (by decide)
  simp [decodeWord, hf]

theorem decodeWord_seReg {w : Word} (h : w &&& 0xF00F#16 = 0x5000#16) : decodeWord w = some (.seReg (fieldX w) (fieldY w)) := by
  have hf : family w = 0x5#4 := (fields_of_F00F h).1.trans (by decide)
  have hn : fieldN w = 0x0#4 := (fields_of_F00F h).2.trans (by decide)
  simp [decodeWord, hf, hn]

theorem decodeWord_ldByte {w : Word} (h : w &&& 0xF000#16 = 0x6000#16) : decodeWord w = some (.ldByte (fieldX w) (fieldNN w)) := by
  have hf : family w = 0x6#4 := (family_of_F000 h).trans (by decide)
  simp [decodeWord, hf]

theorem decodeWord_addByte {w : Word} (h : w &&& 0xF000#16 = 0x7000#16) : decodeWord w = some (.addByte (fieldX w) (fieldNN w)) := by
  have hf : family w = 0x7#4 := (family_of_F000 h).trans (by decide)
  simp [decodeWord, hf]

theorem decodeWord_ldReg {w : Word} (h : w &&& 0xF00F#16 = 0x8000#16) : decodeWord w = some (.ldReg (fieldX w) (fieldY w)) := by
  have hf : family w = 0x8#4 := (fields_of_F00F h).1.trans (by decide)
  have hn : fieldN w = 0x0#4 := (fields_of_F00F h).2.trans (by decide)
  simp [decodeWord, decodeFamily8, hf, hn]

theorem decodeWord_orReg {w : Word} (h : w &&& 0xF00F#16 = 0x8001#16) : decodeWord w = some (.orReg (fieldX w) (fieldY w)) := by
  have hf : family w = 0x8#4 := (fields_of_F00F h).1.trans (by decide)
  have hn : fieldN w = 0x1#4 := (fields_of_F00F h).2.trans (by decide)
  simp [decodeWord, decodeFamily8, hf, hn]

theorem decodeWord_andReg {w : Word} (h : w &&& 0xF00F#16 = 0x8002#16) : decodeWord w = some (.andReg (fieldX w) (fieldY w)) := by
  have hf : family w = 0x8#4 := (fields_of_F00F h).1.trans (by decide)
  have hn : fieldN w = 0x2#4 := (fields_of_F00F h).2.trans (by decide)
  simp [decodeWord, decodeFamily8, hf, hn]

theorem decodeWord_xorReg {w : Word} (h : w &&& 0xF00F#16 = 0x8003#16) : decodeWord w = some (.xorReg (fieldX w) (fieldY w)) := by
  have hf : family w = 0x8#4 := (fields_of_F00F h).1.trans (by decide)
  have hn : fieldN w = 0x3#4 := (fields_of_F00F h).2.trans (by decide)
  simp [decodeWord, decodeFamily8, hf, hn]

theorem decodeWord_addReg {w : Word} (h : w &&& 0xF00F#16 = 0x8004#16) : decodeWord w = some (.addReg (fieldX w) (fieldY w)) := by
  have hf : family w = 0x8#4 := (fields_of_F00F h).1.trans (by decide)
  have hn : fieldN w = 0x4#4 := (fields_of_F00F h).2.trans (by decide)
  simp [decodeWord, decodeFamily8, hf, hn]

theorem decodeWord_sub {w : Word} (h : w &&& 0xF00F#16 = 0x8005#16) : decodeWord w = some (.sub (fieldX w) (fieldY w)) := by
  have hf : family w = 0x8#4 := (fields_of_F00F h).1.trans (by decide)
  have hn : fieldN w = 0x5#4 := (fields_of_F00F h).2.trans (by decide)
  simp [decodeWord, decodeFamily8, hf, hn]

theorem decodeWord_shr {w : Word} (h : w &&& 0xF00F#16 = 0x8006#16) : decodeWord w = some (.shr (fieldX w) (fieldY w)) := by
  have hf : family w = 0x8#4 := (fields_of_F00F h).1.trans (by decide)
  have hn : fieldN w = 0x6#4 := (fields_of_F00F h).2.trans (by decide)
  simp [decodeWord, decodeFamily8, hf, hn]

theorem decodeWord_subn {w : Word} (h : w &&& 0xF00F#16 = 0x8007#16) : decodeWord w = some (.subn (fieldX w) (fieldY w)) := by
  have hf : family w = 0x8#4 := (fields_of_F00F h).1.trans (by decide)
  have hn : fieldN w = 0x7#4 := (fields_of_F00F h).2.trans (by decide)
  simp [decodeWord, decodeFamily8, hf, hn]

theorem decodeWord_shl {w : Word} (h : w &&& 0xF00F#16 = 0x800E#16) : decodeWord w = some (.shl (fieldX w) (fieldY w)) := by
  have hf : family w = 0x8#4 := (fields_of_F00F h).1.trans (by decide)
  have hn : fieldN w = 0xE#4 := (fields_of_F00F h).2.trans (by decide)
  simp [decodeWord, decodeFamily8, hf, hn]

theorem decodeWord_sneReg {w : Word} (h : w &&& 0xF00F#16 = 0x9000#16) : decodeWord w = some (.sneReg (fieldX w) (fieldY w)) := by
  have hf : family w = 0x9#4 := (fields_of_F00F h).1.trans (by decide)
  have hn : fieldN w = 0x0#4 := (fields_of_F00F h).2.trans (by decide)
  simp [decodeWord, hf, hn]

theorem decodeWord_ldIndex {w : Word} (h : w &&& 0xF000#16 = 0xA000#16) : decodeWord w = some (.ldIndex (fieldNNN w)) := by
  have hf : family w = 0xA#4 := (family_of_F000 h).trans (by decide)
  simp [decodeWord, hf]

theorem decodeWord_jpOffset {w : Word} (h : w &&& 0xF000#16 = 0xB000#16) : decodeWord w = some (.jpOffset (fieldNNN w)) := by
  have hf : family w = 0xB#4 := (family_of_F000 h).trans (by decide)
  simp [decodeWord, hf]

theorem decodeWord_rnd {w : Word} (h : w &&& 0xF000#16 = 0xC000#16) : decodeWord w = some (.rnd (fieldX w) (fieldNN w)) := by
  have hf : family w = 0xC#4 := (family_of_F000 h).trans (by decide)
  simp [decodeWord, hf]

theorem decodeWord_drw {w : Word} (h : w &&& 0xF000#16 = 0xD000#16) : decodeWord w = some (.drw (fieldX w) (fieldY w) (fieldN w).toNat) := by
  have hf : family w = 0xD#4 := (family_of_F000 h).trans (by decide)
  simp [decodeWord, hf]

theorem decodeWord_skp {w : Word} (h : w &&& 0xF0FF#16 = 0xE09E#16) : decodeWord w = some (.skp (fieldX w)) := by
  have hf : family w = 0xE#4 := (fields_of_F0FF h).1.trans (by decide)
  have hn : fieldNN w = 0x9E#8 := (fields_of_F0FF h).2.trans (by decide)
  simp [decodeWord, decodeFamilyE, hf, hn]

theorem decodeWord_sknp {w : Word} (h : w &&& 0xF0FF#16 = 0xE0A1#16) : decodeWord w = some (.sknp (fieldX w)) := by
  have hf : family w = 0xE#4 := (fields_of_F0FF h).1.trans (by decide)
  have hn : fieldNN w = 0xA1#8 := (fields_of_F0FF h).2.trans (by decide)
  simp [decodeWord, decodeFamilyE, hf, hn]

theorem decodeWord_ldFromDelay {w : Word} (h : w &&& 0xF0FF#16 = 0xF007#16) : decodeWord w = some (.ldFromDelay (fieldX w)) := by
  have hf : family w = 0xF#4 := (fields_of_F0FF h).1.trans (by decide)
  have hn : fieldNN w = 0x07#8 := (fields_of_F0FF h).2.trans (by decide)
  simp [decodeWord, decodeFamilyF, hf, hn]

theorem decodeWord_ldKey {w : Word} (h : w &&& 0xF0FF#16 = 0xF00A#16) : decodeWord w = some (.ldKey (fieldX w)) := by
  have hf : family w = 0xF#4 := (fields_of_F0FF h).1.trans (by decide)
  have hn : fieldNN w = 0x0A#8 := (fields_of_F0FF h).2.trans (by decide)
  simp [decodeWord, decodeFamilyF, hf, hn]

theorem decodeWord_ldDelay {w : Word} (h : w &&& 0xF0FF#16 = 0xF015#16) : decodeWord w = some (.ldDelay (fieldX w)) := by
  have hf : family w = 0xF#4 := (fields_of_F0FF h).1.trans (by decide)
  have hn : fieldNN w = 0x15#8 := (fields_of_F0FF h).2.trans (by decide)
  simp [decodeWord, decodeFamilyF, hf, hn]

theorem decodeWord_ldSound {w : Word} (h : w &&& 0xF0FF#16 = 0xF018#16) : decodeWord w = some (.ldSound (fieldX w)) := by
  have hf : family w = 0xF#4 := (fields_of_F0FF h).1.trans (by decide)
  have hn : fieldNN w = 0x18#8 := (fields_of_F0FF h).2.trans (by decide)
  simp [decodeWord, decodeFamilyF, hf, hn]

theorem decodeWord_addIndex {w : Word} (h : w &&& 0xF0FF#16 = 0xF01E#16) : decodeWord w = some (.addIndex (fieldX w)) := by
  have hf : family w = 0xF#4 := (fields_of_F0FF h).1.trans (by decide)
  have hn : fieldNN w = 0x1E#8 := (fields_of_F0FF h).2.trans (by decide)
  simp [decodeWord, decodeFamilyF, hf, hn]

theorem decodeWord_ldFont {w : Word} (h : w &&& 0xF0FF#16 = 0xF029#16) : decodeWord w = some (.ldFont (fieldX w)) := by
  have hf : family w = 0xF#4 := (fields_of_F0FF h).1.trans (by decide)
  have hn : fieldNN w = 0x29#8 := (fields_of_F0FF h).2.trans (by decide)
  simp [decodeWord, decodeFamilyF, hf, hn]

theorem decodeWord_ldBcd {w : Word} (h : w &&& 0xF0FF#16 = 0xF033#16) : decodeWord w = some (.ldBcd (fieldX w)) := by
  have hf : family w = 0xF#4 := (fields_of_F0FF h).1.trans (by decide)
  have hn : fieldNN w = 0x33#8 := (fields_of_F0FF h).2.trans (by decide)
  simp [decodeWord, decodeFamilyF, hf, hn]

theorem decodeWord_storeRegs {w : Word} (h : w &&& 0xF0FF#16 = 0xF055#16) : decodeWord w = some (.storeRegs (fieldX w)) := by
  have hf : family w = 0xF#4 := (fields_of_F0FF h).1.trans (by decide)
  have hn : fieldNN w = 0x55#8 := (fields_of_F0FF h).2.trans (by decide)
  simp [decodeWord, decodeFamilyF, hf, hn]

theorem decodeWord_loadRegs {w : Word} (h : w &&& 0xF0FF#16 = 0xF065#16) : decodeWord w = some (.loadRegs (fieldX w)) := by
  have hf : family w = 0xF#4 := (fields_of_F0FF h).1.trans (by decide)
  have hn : fieldNN w = 0x65#8 := (fields_of_F0FF h).2.trans (by decide)
  simp [decodeWord, decodeFamilyF, hf, hn]

/-! ### What a decoded word is -/

/-- The decoder gives an instruction of family 8 only with X, Y and the low nibble of the word. -/
theorem encode_decodeFamily8 {w : Word} {i : Instr} (hf : family w = 0x8#4) (h : decodeFamily8 w = some i) :
    encode i = w ∧ i.wf = true := by
  have hw := formXYN_fields w
  rw [hf] at hw
  simp only [decodeFamily8] at h
  repeat' split at h
  all_goals first
    | (next hn => rw [hn] at hw; cases h; exact ⟨hw, rfl⟩)
    | cases h

theorem encode_decodeFamilyE {w : Word} {i : Instr} (hf : family w = 0xE#4) (h : decodeFamilyE w = some i) :
    encode i = w ∧ i.wf = true := by
  have hw := formXNN_fields w
  rw [hf] at hw
  simp only [decodeFamilyE] at h
  repeat' split at h
  all_goals first
    | (next hn => rw [hn] at hw; cases h; exact ⟨hw, rfl⟩)
    | cases h

theorem encode_decodeFamilyF {w : Word} {i : Instr} (hf : family w = 0xF#4) (h : decodeFamilyF w = some i) :
    encode i = w ∧ i.wf = true := by
  have hw := formXNN_fields w
  rw [hf] at hw
  simp only [decodeFamilyF] at h
  repeat' split at h
  all_goals first
    | (next hn => rw [hn] at hw; cases h; exact ⟨hw, rfl⟩)
    | cases h

/-- A nibble that is none of 0 to E is F. -/
theorem family_eq_F {w : Word} (h0 : family w ≠ 0x0#4) (h1 : family w ≠ 0x1#4) (h2 : family w ≠ 0x2#4)
    (h3 : family w ≠ 0x3#4) (h4 : family w ≠ 0x4#4) (h5 : family w ≠ 0x5#4) (h6 : family w ≠ 0x6#4)
    (h7 : family w ≠ 0x7#4) (h8 : family w ≠ 0x8#4) (h9 : family w ≠ 0x9#4) (hA : family w ≠ 0xA#4)
    (hB : family w ≠ 0xB#4) (hC : family w ≠ 0xC#4) (hD : family w ≠ 0xD#4) (hE : family w ≠ 0xE#4) :
    family w = 0xF#4 := by
  simp only [ne_eq, ← BitVec.toNat_inj, BitVec.toNat_ofNat] at *
  have := (family w).isLt
  omega

end Sys2Proof
end

