-- ==== Sys2Proof/Laws/State.lean ====
section
/-! SUPPORT. The small lemmas of the state updates: for each update, every field it leaves, every read it leaves, and
what it writes. -/

namespace Sys2Proof.Machine

variable (s : State)

/-! ### setReg -/

@[simp] theorem State.setReg_mem (r : Reg) (b : Byte) : (s.setReg r b).mem = s.mem := rfl
@[simp] theorem State.setReg_i (r : Reg) (b : Byte) : (s.setReg r b).i = s.i := rfl
@[simp] theorem State.setReg_pc (r : Reg) (b : Byte) : (s.setReg r b).pc = s.pc := rfl
@[simp] theorem State.setReg_stack (r : Reg) (b : Byte) : (s.setReg r b).stack = s.stack := rfl
@[simp] theorem State.setReg_sp (r : Reg) (b : Byte) : (s.setReg r b).sp = s.sp := rfl
@[simp] theorem State.setReg_dt (r : Reg) (b : Byte) : (s.setReg r b).dt = s.dt := rfl
@[simp] theorem State.setReg_st (r : Reg) (b : Byte) : (s.setReg r b).st = s.st := rfl
@[simp] theorem State.setReg_dtLast (r : Reg) (b : Byte) : (s.setReg r b).dtLast = s.dtLast := rfl
@[simp] theorem State.setReg_stLast (r : Reg) (b : Byte) : (s.setReg r b).stLast = s.stLast := rfl
@[simp] theorem State.setReg_key (r : Reg) (b : Byte) : (s.setReg r b).key = s.key := rfl
@[simp] theorem State.setReg_disp (r : Reg) (b : Byte) : (s.setReg r b).disp = s.disp := rfl
@[simp] theorem State.setReg_cfg (r : Reg) (b : Byte) : (s.setReg r b).cfg = s.cfg := rfl
@[simp] theorem State.setReg_run (r : Reg) (b : Byte) : (s.setReg r b).run = s.run := rfl
@[simp] theorem State.setReg_now (r : Reg) (b : Byte) : (s.setReg r b).now = s.now := rfl
@[simp] theorem State.setReg_rnd (r : Reg) (b : Byte) : (s.setReg r b).rnd = s.rnd := rfl
@[simp] theorem State.setReg_inputs (r : Reg) (b : Byte) : (s.setReg r b).inputs = s.inputs := rfl
@[simp] theorem State.setReg_freeIdx (r : Reg) (b : Byte) : (s.setReg r b).freeIdx = s.freeIdx := rfl
@[simp] theorem State.readByte_setReg (r : Reg) (b : Byte) (n : Nat) : (s.setReg r b).readByte n = s.readByte n := rfl
@[simp] theorem State.cell_setReg (r : Reg) (b : Byte) (cx : Fin 64) (cy : Fin 32) : (s.setReg r b).cell cx cy = s.cell cx cy := rfl
@[simp] theorem State.keyDown_setReg (r : Reg) (b : Byte) (k : Fin 16) : (s.setReg r b).keyDown k = s.keyDown k := rfl

/-! ### setResultAndFlag -/

@[simp] theorem State.setResultAndFlag_mem (x : Reg) (b f : Byte) : (s.setResultAndFlag x b f).mem = s.mem := rfl
@[simp] theorem State.setResultAndFlag_i (x : Reg) (b f : Byte) : (s.setResultAndFlag x b f).i = s.i := rfl
@[simp] theorem State.setResultAndFlag_pc (x : Reg) (b f : Byte) : (s.setResultAndFlag x b f).pc = s.pc := rfl
@[simp] theorem State.setResultAndFlag_stack (x : Reg) (b f : Byte) : (s.setResultAndFlag x b f).stack = s.stack := rfl
@[simp] theorem State.setResultAndFlag_sp (x : Reg) (b f : Byte) : (s.setResultAndFlag x b f).sp = s.sp := rfl
@[simp] theorem State.setResultAndFlag_dt (x : Reg) (b f : Byte) : (s.setResultAndFlag x b f).dt = s.dt := rfl
@[simp] theorem State.setResultAndFlag_st (x : Reg) (b f : Byte) : (s.setResultAndFlag x b f).st = s.st := rfl
@[simp] theorem State.setResultAndFlag_dtLast (x : Reg) (b f : Byte) : (s.setResultAndFlag x b f).dtLast = s.dtLast := rfl
@[simp] theorem State.setResultAndFlag_stLast (x : Reg) (b f : Byte) : (s.setResultAndFlag x b f).stLast = s.stLast := rfl
@[simp] theorem State.setResultAndFlag_key (x : Reg) (b f : Byte) : (s.setResultAndFlag x b f).key = s.key := rfl
@[simp] theorem State.setResultAndFlag_disp (x : Reg) (b f : Byte) : (s.setResultAndFlag x b f).disp = s.disp := rfl
@[simp] theorem State.setResultAndFlag_cfg (x : Reg) (b f : Byte) : (s.setResultAndFlag x b f).cfg = s.cfg := rfl
@[simp] theorem State.setResultAndFlag_run (x : Reg) (b f : Byte) : (s.setResultAndFlag x b f).run = s.run := rfl
@[simp] theorem State.setResultAndFlag_now (x : Reg) (b f : Byte) : (s.setResultAndFlag x b f).now = s.now := rfl
@[simp] theorem State.setResultAndFlag_rnd (x : Reg) (b f : Byte) : (s.setResultAndFlag x b f).rnd = s.rnd := rfl
@[simp] theorem State.setResultAndFlag_inputs (x : Reg) (b f : Byte) : (s.setResultAndFlag x b f).inputs = s.inputs := rfl
@[simp] theorem State.setResultAndFlag_freeIdx (x : Reg) (b f : Byte) : (s.setResultAndFlag x b f).freeIdx = s.freeIdx := rfl
@[simp] theorem State.readByte_setResultAndFlag (x : Reg) (b f : Byte) (n : Nat) : (s.setResultAndFlag x b f).readByte n = s.readByte n := rfl
@[simp] theorem State.cell_setResultAndFlag (x : Reg) (b f : Byte) (cx : Fin 64) (cy : Fin 32) : (s.setResultAndFlag x b f).cell cx cy = s.cell cx cy := rfl
@[simp] theorem State.keyDown_setResultAndFlag (x : Reg) (b f : Byte) (k : Fin 16) : (s.setResultAndFlag x b f).keyDown k = s.keyDown k := rfl

/-! ### setIndex -/

@[simp] theorem State.setIndex_mem (a : Word) : (s.setIndex a).mem = s.mem := rfl
@[simp] theorem State.setIndex_v (a : Word) : (s.setIndex a).v = s.v := rfl
@[simp] theorem State.setIndex_pc (a : Word) : (s.setIndex a).pc = s.pc := rfl
@[simp] theorem State.setIndex_stack (a : Word) : (s.setIndex a).stack = s.stack := rfl
@[simp] theorem State.setIndex_sp (a : Word) : (s.setIndex a).sp = s.sp := rfl
@[simp] theorem State.setIndex_dt (a : Word) : (s.setIndex a).dt = s.dt := rfl
@[simp] theorem State.setIndex_st (a : Word) : (s.setIndex a).st = s.st := rfl
@[simp] theorem State.setIndex_dtLast (a : Word) : (s.setIndex a).dtLast = s.dtLast := rfl
@[simp] theorem State.setIndex_stLast (a : Word) : (s.setIndex a).stLast = s.stLast := rfl
@[simp] theorem State.setIndex_key (a : Word) : (s.setIndex a).key = s.key := rfl
@[simp] theorem State.setIndex_disp (a : Word) : (s.setIndex a).disp = s.disp := rfl
@[simp] theorem State.setIndex_cfg (a : Word) : (s.setIndex a).cfg = s.cfg := rfl
@[simp] theorem State.setIndex_run (a : Word) : (s.setIndex a).run = s.run := rfl
@[simp] theorem State.setIndex_now (a : Word) : (s.setIndex a).now = s.now := rfl
@[simp] theorem State.setIndex_rnd (a : Word) : (s.setIndex a).rnd = s.rnd := rfl
@[simp] theorem State.setIndex_inputs (a : Word) : (s.setIndex a).inputs = s.inputs := rfl
@[simp] theorem State.setIndex_freeIdx (a : Word) : (s.setIndex a).freeIdx = s.freeIdx := rfl
@[simp] theorem State.reg_setIndex (a : Word) (q : Reg) : (s.setIndex a).reg q = s.reg q := rfl
@[simp] theorem State.readByte_setIndex (a : Word) (n : Nat) : (s.setIndex a).readByte n = s.readByte n := rfl
@[simp] theorem State.cell_setIndex (a : Word) (cx : Fin 64) (cy : Fin 32) : (s.setIndex a).cell cx cy = s.cell cx cy := rfl
@[simp] theorem State.keyDown_setIndex (a : Word) (k : Fin 16) : (s.setIndex a).keyDown k = s.keyDown k := rfl

/-! ### setPc -/

@[simp] theorem State.setPc_mem (a : Word) : (s.setPc a).mem = s.mem := rfl
@[simp] theorem State.setPc_v (a : Word) : (s.setPc a).v = s.v := rfl
@[simp] theorem State.setPc_i (a : Word) : (s.setPc a).i = s.i := rfl
@[simp] theorem State.setPc_stack (a : Word) : (s.setPc a).stack = s.stack := rfl
@[simp] theorem State.setPc_sp (a : Word) : (s.setPc a).sp = s.sp := rfl
@[simp] theorem State.setPc_dt (a : Word) : (s.setPc a).dt = s.dt := rfl
@[simp] theorem State.setPc_st (a : Word) : (s.setPc a).st = s.st := rfl
@[simp] theorem State.setPc_dtLast (a : Word) : (s.setPc a).dtLast = s.dtLast := rfl
@[simp] theorem State.setPc_stLast (a : Word) : (s.setPc a).stLast = s.stLast := rfl
@[simp] theorem State.setPc_key (a : Word) : (s.setPc a).key = s.key := rfl
@[simp] theorem State.setPc_disp (a : Word) : (s.setPc a).disp = s.disp := rfl
@[simp] theorem State.setPc_cfg (a : Word) : (s.setPc a).cfg = s.cfg := rfl
@[simp] theorem State.setPc_run (a : Word) : (s.setPc a).run = s.run := rfl
@[simp] theorem State.setPc_now (a : Word) : (s.setPc a).now = s.now := rfl
@[simp] theorem State.setPc_rnd (a : Word) : (s.setPc a).rnd = s.rnd := rfl
@[simp] theorem State.setPc_inputs (a : Word) : (s.setPc a).inputs = s.inputs := rfl
@[simp] theorem State.setPc_freeIdx (a : Word) : (s.setPc a).freeIdx = s.freeIdx := rfl
@[simp] theorem State.reg_setPc (a : Word) (q : Reg) : (s.setPc a).reg q = s.reg q := rfl
@[simp] theorem State.readByte_setPc (a : Word) (n : Nat) : (s.setPc a).readByte n = s.readByte n := rfl
@[simp] theorem State.cell_setPc (a : Word) (cx : Fin 64) (cy : Fin 32) : (s.setPc a).cell cx cy = s.cell cx cy := rfl
@[simp] theorem State.keyDown_setPc (a : Word) (k : Fin 16) : (s.setPc a).keyDown k = s.keyDown k := rfl

/-! ### writeByte -/

@[simp] theorem State.writeByte_v (a : Nat) (b : Byte) : (s.writeByte a b).v = s.v := rfl
@[simp] theorem State.writeByte_i (a : Nat) (b : Byte) : (s.writeByte a b).i = s.i := rfl
@[simp] theorem State.writeByte_pc (a : Nat) (b : Byte) : (s.writeByte a b).pc = s.pc := rfl
@[simp] theorem State.writeByte_stack (a : Nat) (b : Byte) : (s.writeByte a b).stack = s.stack := rfl
@[simp] theorem State.writeByte_sp (a : Nat) (b : Byte) : (s.writeByte a b).sp = s.sp := rfl
@[simp] theorem State.writeByte_dt (a : Nat) (b : Byte) : (s.writeByte a b).dt = s.dt := rfl
@[simp] theorem State.writeByte_st (a : Nat) (b : Byte) : (s.writeByte a b).st = s.st := rfl
@[simp] theorem State.writeByte_dtLast (a : Nat) (b : Byte) : (s.writeByte a b).dtLast = s.dtLast := rfl
@[simp] theorem State.writeByte_stLast (a : Nat) (b : Byte) : (s.writeByte a b).stLast = s.stLast := rfl
@[simp] theorem State.writeByte_key (a : Nat) (b : Byte) : (s.writeByte a b).key = s.key := rfl
@[simp] theorem State.writeByte_disp (a : Nat) (b : Byte) : (s.writeByte a b).disp = s.disp := rfl
@[simp] theorem State.writeByte_cfg (a : Nat) (b : Byte) : (s.writeByte a b).cfg = s.cfg := rfl
@[simp] theorem State.writeByte_run (a : Nat) (b : Byte) : (s.writeByte a b).run = s.run := rfl
@[simp] theorem State.writeByte_now (a : Nat) (b : Byte) : (s.writeByte a b).now = s.now := rfl
@[simp] theorem State.writeByte_rnd (a : Nat) (b : Byte) : (s.writeByte a b).rnd = s.rnd := rfl
@[simp] theorem State.writeByte_inputs (a : Nat) (b : Byte) : (s.writeByte a b).inputs = s.inputs := rfl
@[simp] theorem State.writeByte_freeIdx (a : Nat) (b : Byte) : (s.writeByte a b).freeIdx = s.freeIdx := rfl
@[simp] theorem State.reg_writeByte (a : Nat) (b : Byte) (q : Reg) : (s.writeByte a b).reg q = s.reg q := rfl
@[simp] theorem State.cell_writeByte (a : Nat) (b : Byte) (cx : Fin 64) (cy : Fin 32) : (s.writeByte a b).cell cx cy = s.cell cx cy := rfl
@[simp] theorem State.keyDown_writeByte (a : Nat) (b : Byte) (k : Fin 16) : (s.writeByte a b).keyDown k = s.keyDown k := rfl

/-! ### setCell -/

@[simp] theorem State.setCell_mem (x : Fin 64) (y : Fin 32) (b : Bool) : (s.setCell x y b).mem = s.mem := rfl
@[simp] theorem State.setCell_v (x : Fin 64) (y : Fin 32) (b : Bool) : (s.setCell x y b).v = s.v := rfl
@[simp] theorem State.setCell_i (x : Fin 64) (y : Fin 32) (b : Bool) : (s.setCell x y b).i = s.i := rfl
@[simp] theorem State.setCell_pc (x : Fin 64) (y : Fin 32) (b : Bool) : (s.setCell x y b).pc = s.pc := rfl
@[simp] theorem State.setCell_stack (x : Fin 64) (y : Fin 32) (b : Bool) : (s.setCell x y b).stack = s.stack := rfl
@[simp] theorem State.setCell_sp (x : Fin 64) (y : Fin 32) (b : Bool) : (s.setCell x y b).sp = s.sp := rfl
@[simp] theorem State.setCell_dt (x : Fin 64) (y : Fin 32) (b : Bool) : (s.setCell x y b).dt = s.dt := rfl
@[simp] theorem State.setCell_st (x : Fin 64) (y : Fin 32) (b : Bool) : (s.setCell x y b).st = s.st := rfl
@[simp] theorem State.setCell_dtLast (x : Fin 64) (y : Fin 32) (b : Bool) : (s.setCell x y b).dtLast = s.dtLast := rfl
@[simp] theorem State.setCell_stLast (x : Fin 64) (y : Fin 32) (b : Bool) : (s.setCell x y b).stLast = s.stLast := rfl
@[simp] theorem State.setCell_key (x : Fin 64) (y : Fin 32) (b : Bool) : (s.setCell x y b).key = s.key := rfl
@[simp] theorem State.setCell_cfg (x : Fin 64) (y : Fin 32) (b : Bool) : (s.setCell x y b).cfg = s.cfg := rfl
@[simp] theorem State.setCell_run (x : Fin 64) (y : Fin 32) (b : Bool) : (s.setCell x y b).run = s.run := rfl
@[simp] theorem State.setCell_now (x : Fin 64) (y : Fin 32) (b : Bool) : (s.setCell x y b).now = s.now := rfl
@[simp] theorem State.setCell_rnd (x : Fin 64) (y : Fin 32) (b : Bool) : (s.setCell x y b).rnd = s.rnd := rfl
@[simp] theorem State.setCell_inputs (x : Fin 64) (y : Fin 32) (b : Bool) : (s.setCell x y b).inputs = s.inputs := rfl
@[simp] theorem State.setCell_freeIdx (x : Fin 64) (y : Fin 32) (b : Bool) : (s.setCell x y b).freeIdx = s.freeIdx := rfl
@[simp] theorem State.reg_setCell (x : Fin 64) (y : Fin 32) (b : Bool) (q : Reg) : (s.setCell x y b).reg q = s.reg q := rfl
@[simp] theorem State.readByte_setCell (x : Fin 64) (y : Fin 32) (b : Bool) (n : Nat) : (s.setCell x y b).readByte n = s.readByte n := rfl
@[simp] theorem State.keyDown_setCell (x : Fin 64) (y : Fin 32) (b : Bool) (k : Fin 16) : (s.setCell x y b).keyDown k = s.keyDown k := rfl

/-! ### clearDisplay -/

@[simp] theorem State.clearDisplay_mem : (s.clearDisplay).mem = s.mem := rfl
@[simp] theorem State.clearDisplay_v : (s.clearDisplay).v = s.v := rfl
@[simp] theorem State.clearDisplay_i : (s.clearDisplay).i = s.i := rfl
@[simp] theorem State.clearDisplay_pc : (s.clearDisplay).pc = s.pc := rfl
@[simp] theorem State.clearDisplay_stack : (s.clearDisplay).stack = s.stack := rfl
@[simp] theorem State.clearDisplay_sp : (s.clearDisplay).sp = s.sp := rfl
@[simp] theorem State.clearDisplay_dt : (s.clearDisplay).dt = s.dt := rfl
@[simp] theorem State.clearDisplay_st : (s.clearDisplay).st = s.st := rfl
@[simp] theorem State.clearDisplay_dtLast : (s.clearDisplay).dtLast = s.dtLast := rfl
@[simp] theorem State.clearDisplay_stLast : (s.clearDisplay).stLast = s.stLast := rfl
@[simp] theorem State.clearDisplay_key : (s.clearDisplay).key = s.key := rfl
@[simp] theorem State.clearDisplay_cfg : (s.clearDisplay).cfg = s.cfg := rfl
@[simp] theorem State.clearDisplay_run : (s.clearDisplay).run = s.run := rfl
@[simp] theorem State.clearDisplay_now : (s.clearDisplay).now = s.now := rfl
@[simp] theorem State.clearDisplay_rnd : (s.clearDisplay).rnd = s.rnd := rfl
@[simp] theorem State.clearDisplay_inputs : (s.clearDisplay).inputs = s.inputs := rfl
@[simp] theorem State.clearDisplay_freeIdx : (s.clearDisplay).freeIdx = s.freeIdx := rfl
@[simp] theorem State.reg_clearDisplay (q : Reg) : (s.clearDisplay).reg q = s.reg q := rfl
@[simp] theorem State.readByte_clearDisplay (n : Nat) : (s.clearDisplay).readByte n = s.readByte n := rfl
@[simp] theorem State.keyDown_clearDisplay (k : Fin 16) : (s.clearDisplay).keyDown k = s.keyDown k := rfl

/-! ### setDelay -/

@[simp] theorem State.setDelay_mem (b : Byte) : (s.setDelay b).mem = s.mem := rfl
@[simp] theorem State.setDelay_v (b : Byte) : (s.setDelay b).v = s.v := rfl
@[simp] theorem State.setDelay_i (b : Byte) : (s.setDelay b).i = s.i := rfl
@[simp] theorem State.setDelay_pc (b : Byte) : (s.setDelay b).pc = s.pc := rfl
@[simp] theorem State.setDelay_stack (b : Byte) : (s.setDelay b).stack = s.stack := rfl
@[simp] theorem State.setDelay_sp (b : Byte) : (s.setDelay b).sp = s.sp := rfl
@[simp] theorem State.setDelay_st (b : Byte) : (s.setDelay b).st = s.st := rfl
@[simp] theorem State.setDelay_stLast (b : Byte) : (s.setDelay b).stLast = s.stLast := rfl
@[simp] theorem State.setDelay_key (b : Byte) : (s.setDelay b).key = s.key := rfl
@[simp] theorem State.setDelay_disp (b : Byte) : (s.setDelay b).disp = s.disp := rfl
@[simp] theorem State.setDelay_cfg (b : Byte) : (s.setDelay b).cfg = s.cfg := rfl
@[simp] theorem State.setDelay_run (b : Byte) : (s.setDelay b).run = s.run := rfl
@[simp] theorem State.setDelay_now (b : Byte) : (s.setDelay b).now = s.now := rfl
@[simp] theorem State.setDelay_rnd (b : Byte) : (s.setDelay b).rnd = s.rnd := rfl
@[simp] theorem State.setDelay_inputs (b : Byte) : (s.setDelay b).inputs = s.inputs := rfl
@[simp] theorem State.setDelay_freeIdx (b : Byte) : (s.setDelay b).freeIdx = s.freeIdx := rfl
@[simp] theorem State.reg_setDelay (b : Byte) (q : Reg) : (s.setDelay b).reg q = s.reg q := rfl
@[simp] theorem State.readByte_setDelay (b : Byte) (n : Nat) : (s.setDelay b).readByte n = s.readByte n := rfl
@[simp] theorem State.cell_setDelay (b : Byte) (cx : Fin 64) (cy : Fin 32) : (s.setDelay b).cell cx cy = s.cell cx cy := rfl
@[simp] theorem State.keyDown_setDelay (b : Byte) (k : Fin 16) : (s.setDelay b).keyDown k = s.keyDown k := rfl

/-! ### setSound -/

@[simp] theorem State.setSound_mem (b : Byte) : (s.setSound b).mem = s.mem := rfl
@[simp] theorem State.setSound_v (b : Byte) : (s.setSound b).v = s.v := rfl
@[simp] theorem State.setSound_i (b : Byte) : (s.setSound b).i = s.i := rfl
@[simp] theorem State.setSound_pc (b : Byte) : (s.setSound b).pc = s.pc := rfl
@[simp] theorem State.setSound_stack (b : Byte) : (s.setSound b).stack = s.stack := rfl
@[simp] theorem State.setSound_sp (b : Byte) : (s.setSound b).sp = s.sp := rfl
@[simp] theorem State.setSound_dt (b : Byte) : (s.setSound b).dt = s.dt := rfl
@[simp] theorem State.setSound_dtLast (b : Byte) : (s.setSound b).dtLast = s.dtLast := rfl
@[simp] theorem State.setSound_key (b : Byte) : (s.setSound b).key = s.key := rfl
@[simp] theorem State.setSound_disp (b : Byte) : (s.setSound b).disp = s.disp := rfl
@[simp] theorem State.setSound_cfg (b : Byte) : (s.setSound b).cfg = s.cfg := rfl
@[simp] theorem State.setSound_run (b : Byte) : (s.setSound b).run = s.run := rfl
@[simp] theorem State.setSound_now (b : Byte) : (s.setSound b).now = s.now := rfl
@[simp] theorem State.setSound_rnd (b : Byte) : (s.setSound b).rnd = s.rnd := rfl
@[simp] theorem State.setSound_inputs (b : Byte) : (s.setSound b).inputs = s.inputs := rfl
@[simp] theorem State.setSound_freeIdx (b : Byte) : (s.setSound b).freeIdx = s.freeIdx := rfl
@[simp] theorem State.reg_setSound (b : Byte) (q : Reg) : (s.setSound b).reg q = s.reg q := rfl
@[simp] theorem State.readByte_setSound (b : Byte) (n : Nat) : (s.setSound b).readByte n = s.readByte n := rfl
@[simp] theorem State.cell_setSound (b : Byte) (cx : Fin 64) (cy : Fin 32) : (s.setSound b).cell cx cy = s.cell cx cy := rfl
@[simp] theorem State.keyDown_setSound (b : Byte) (k : Fin 16) : (s.setSound b).keyDown k = s.keyDown k := rfl

/-! ### halt -/

@[simp] theorem State.halt_mem (f : Fault) : (s.halt f).mem = s.mem := rfl
@[simp] theorem State.halt_v (f : Fault) : (s.halt f).v = s.v := rfl
@[simp] theorem State.halt_i (f : Fault) : (s.halt f).i = s.i := rfl
@[simp] theorem State.halt_pc (f : Fault) : (s.halt f).pc = s.pc := rfl
@[simp] theorem State.halt_stack (f : Fault) : (s.halt f).stack = s.stack := rfl
@[simp] theorem State.halt_sp (f : Fault) : (s.halt f).sp = s.sp := rfl
@[simp] theorem State.halt_dt (f : Fault) : (s.halt f).dt = s.dt := rfl
@[simp] theorem State.halt_st (f : Fault) : (s.halt f).st = s.st := rfl
@[simp] theorem State.halt_dtLast (f : Fault) : (s.halt f).dtLast = s.dtLast := rfl
@[simp] theorem State.halt_stLast (f : Fault) : (s.halt f).stLast = s.stLast := rfl
@[simp] theorem State.halt_key (f : Fault) : (s.halt f).key = s.key := rfl
@[simp] theorem State.halt_disp (f : Fault) : (s.halt f).disp = s.disp := rfl
@[simp] theorem State.halt_cfg (f : Fault) : (s.halt f).cfg = s.cfg := rfl
@[simp] theorem State.halt_now (f : Fault) : (s.halt f).now = s.now := rfl
@[simp] theorem State.halt_rnd (f : Fault) : (s.halt f).rnd = s.rnd := rfl
@[simp] theorem State.halt_inputs (f : Fault) : (s.halt f).inputs = s.inputs := rfl
@[simp] theorem State.halt_freeIdx (f : Fault) : (s.halt f).freeIdx = s.freeIdx := rfl
@[simp] theorem State.reg_halt (f : Fault) (q : Reg) : (s.halt f).reg q = s.reg q := rfl
@[simp] theorem State.readByte_halt (f : Fault) (n : Nat) : (s.halt f).readByte n = s.readByte n := rfl
@[simp] theorem State.cell_halt (f : Fault) (cx : Fin 64) (cy : Fin 32) : (s.halt f).cell cx cy = s.cell cx cy := rfl
@[simp] theorem State.keyDown_halt (f : Fault) (k : Fin 16) : (s.halt f).keyDown k = s.keyDown k := rfl

/-! ### skipIf -/

@[simp] theorem State.skipIf_mem (c : Bool) : (s.skipIf c).mem = s.mem := by cases c <;> rfl
@[simp] theorem State.skipIf_v (c : Bool) : (s.skipIf c).v = s.v := by cases c <;> rfl
@[simp] theorem State.skipIf_i (c : Bool) : (s.skipIf c).i = s.i := by cases c <;> rfl
@[simp] theorem State.skipIf_stack (c : Bool) : (s.skipIf c).stack = s.stack := by cases c <;> rfl
@[simp] theorem State.skipIf_sp (c : Bool) : (s.skipIf c).sp = s.sp := by cases c <;> rfl
@[simp] theorem State.skipIf_dt (c : Bool) : (s.skipIf c).dt = s.dt := by cases c <;> rfl
@[simp] theorem State.skipIf_st (c : Bool) : (s.skipIf c).st = s.st := by cases c <;> rfl
@[simp] theorem State.skipIf_dtLast (c : Bool) : (s.skipIf c).dtLast = s.dtLast := by cases c <;> rfl
@[simp] theorem State.skipIf_stLast (c : Bool) : (s.skipIf c).stLast = s.stLast := by cases c <;> rfl
@[simp] theorem State.skipIf_key (c : Bool) : (s.skipIf c).key = s.key := by cases c <;> rfl
@[simp] theorem State.skipIf_disp (c : Bool) : (s.skipIf c).disp = s.disp := by cases c <;> rfl
@[simp] theorem State.skipIf_cfg (c : Bool) : (s.skipIf c).cfg = s.cfg := by cases c <;> rfl
@[simp] theorem State.skipIf_run (c : Bool) : (s.skipIf c).run = s.run := by cases c <;> rfl
@[simp] theorem State.skipIf_now (c : Bool) : (s.skipIf c).now = s.now := by cases c <;> rfl
@[simp] theorem State.skipIf_rnd (c : Bool) : (s.skipIf c).rnd = s.rnd := by cases c <;> rfl
@[simp] theorem State.skipIf_inputs (c : Bool) : (s.skipIf c).inputs = s.inputs := by cases c <;> rfl
@[simp] theorem State.skipIf_freeIdx (c : Bool) : (s.skipIf c).freeIdx = s.freeIdx := by cases c <;> rfl
@[simp] theorem State.reg_skipIf (c : Bool) (q : Reg) : (s.skipIf c).reg q = s.reg q := by cases c <;> rfl
@[simp] theorem State.readByte_skipIf (c : Bool) (n : Nat) : (s.skipIf c).readByte n = s.readByte n := by cases c <;> rfl
@[simp] theorem State.cell_skipIf (c : Bool) (cx : Fin 64) (cy : Fin 32) : (s.skipIf c).cell cx cy = s.cell cx cy := by cases c <;> rfl
@[simp] theorem State.keyDown_skipIf (c : Bool) (k : Fin 16) : (s.skipIf c).keyDown k = s.keyDown k := by cases c <;> rfl

/-! ### bumpIndex -/

@[simp] theorem State.bumpIndex_mem (x : Reg) : (s.bumpIndex x).mem = s.mem := by unfold State.bumpIndex; split <;> rfl
@[simp] theorem State.bumpIndex_v (x : Reg) : (s.bumpIndex x).v = s.v := by unfold State.bumpIndex; split <;> rfl
@[simp] theorem State.bumpIndex_pc (x : Reg) : (s.bumpIndex x).pc = s.pc := by unfold State.bumpIndex; split <;> rfl
@[simp] theorem State.bumpIndex_stack (x : Reg) : (s.bumpIndex x).stack = s.stack := by unfold State.bumpIndex; split <;> rfl
@[simp] theorem State.bumpIndex_sp (x : Reg) : (s.bumpIndex x).sp = s.sp := by unfold State.bumpIndex; split <;> rfl
@[simp] theorem State.bumpIndex_dt (x : Reg) : (s.bumpIndex x).dt = s.dt := by unfold State.bumpIndex; split <;> rfl
@[simp] theorem State.bumpIndex_st (x : Reg) : (s.bumpIndex x).st = s.st := by unfold State.bumpIndex; split <;> rfl
@[simp] theorem State.bumpIndex_dtLast (x : Reg) : (s.bumpIndex x).dtLast = s.dtLast := by unfold State.bumpIndex; split <;> rfl
@[simp] theorem State.bumpIndex_stLast (x : Reg) : (s.bumpIndex x).stLast = s.stLast := by unfold State.bumpIndex; split <;> rfl
@[simp] theorem State.bumpIndex_key (x : Reg) : (s.bumpIndex x).key = s.key := by unfold State.bumpIndex; split <;> rfl
@[simp] theorem State.bumpIndex_disp (x : Reg) : (s.bumpIndex x).disp = s.disp := by unfold State.bumpIndex; split <;> rfl
@[simp] theorem State.bumpIndex_cfg (x : Reg) : (s.bumpIndex x).cfg = s.cfg := by unfold State.bumpIndex; split <;> rfl
@[simp] theorem State.bumpIndex_run (x : Reg) : (s.bumpIndex x).run = s.run := by unfold State.bumpIndex; split <;> rfl
@[simp] theorem State.bumpIndex_now (x : Reg) : (s.bumpIndex x).now = s.now := by unfold State.bumpIndex; split <;> rfl
@[simp] theorem State.bumpIndex_rnd (x : Reg) : (s.bumpIndex x).rnd = s.rnd := by unfold State.bumpIndex; split <;> rfl
@[simp] theorem State.bumpIndex_inputs (x : Reg) : (s.bumpIndex x).inputs = s.inputs := by unfold State.bumpIndex; split <;> rfl
@[simp] theorem State.bumpIndex_freeIdx (x : Reg) : (s.bumpIndex x).freeIdx = s.freeIdx := by unfold State.bumpIndex; split <;> rfl
@[simp] theorem State.reg_bumpIndex (x : Reg) (q : Reg) : (s.bumpIndex x).reg q = s.reg q := by unfold State.bumpIndex; split <;> rfl
@[simp] theorem State.readByte_bumpIndex (x : Reg) (n : Nat) : (s.bumpIndex x).readByte n = s.readByte n := by unfold State.bumpIndex; split <;> rfl
@[simp] theorem State.cell_bumpIndex (x : Reg) (cx : Fin 64) (cy : Fin 32) : (s.bumpIndex x).cell cx cy = s.cell cx cy := by unfold State.bumpIndex; split <;> rfl
@[simp] theorem State.keyDown_bumpIndex (x : Reg) (k : Fin 16) : (s.bumpIndex x).keyDown k = s.keyDown k := by unfold State.bumpIndex; split <;> rfl

/-! ### What the updates write -/

@[simp] theorem State.setReg_v (r : Reg) (b : Byte) : (s.setReg r b).v = s.v.set r b := rfl
@[simp] theorem State.setIndex_i (a : Word) : (s.setIndex a).i = a := rfl
@[simp] theorem State.setPc_pc (a : Word) : (s.setPc a).pc = a := rfl
@[simp] theorem State.writeByte_mem (a : Nat) (b : Byte) :
    (s.writeByte a b).mem = Memory.write s.cfg.font s.mem a b := rfl
@[simp] theorem State.setDelay_dt (b : Byte) : (s.setDelay b).dt = b := rfl
@[simp] theorem State.setDelay_dtLast (b : Byte) : (s.setDelay b).dtLast = s.now := rfl
@[simp] theorem State.setSound_st (b : Byte) : (s.setSound b).st = b := rfl
@[simp] theorem State.setSound_stLast (b : Byte) : (s.setSound b).stLast = s.now := rfl
@[simp] theorem State.halt_run (f : Fault) : (s.halt f).run = .halted f := rfl

@[simp] theorem State.skipIf_pc (c : Bool) : (s.skipIf c).pc = if c then s.pc + 2 else s.pc := by cases c <;> rfl

@[simp] theorem State.bumpIndex_i (x : Reg) :
    (s.bumpIndex x).i = if s.cfg.quirkIndexInc = .yes then s.i + BitVec.ofNat 16 (x.val + 1) else s.i := by
  unfold State.bumpIndex; split <;> simp_all

/-- A register read after a register write (R12). -/
theorem State.reg_setReg (r q : Reg) (b : Byte) : (s.setReg r b).reg q = if q = r then b else s.reg q := by
  simp only [State.reg, State.setReg, Fin.getElem_fin, Vector.getElem_set, Fin.ext_iff, eq_comm]

@[simp] theorem State.reg_setReg_self (r : Reg) (b : Byte) : (s.setReg r b).reg r = b := by
  simp [State.reg_setReg]

@[simp] theorem State.reg_setReg_of_ne {r q : Reg} (h : q ≠ r) (b : Byte) : (s.setReg r b).reg q = s.reg q := by
  simp [State.reg_setReg, h]

/-- An ALU result with its flag: VF holds the flag, X the result unless X is F (R141). -/
theorem State.reg_setResultAndFlag (x q : Reg) (b f : Byte) :
    (s.setResultAndFlag x b f).reg q = if q = VF then f else if q = x then b else s.reg q := by
  simp only [State.setResultAndFlag, State.reg_setReg]

/-- A cell read after a cell write (R12). -/
theorem State.cell_setCell (x cx : Fin 64) (y cy : Fin 32) (b : Bool) :
    (s.setCell x y b).cell cx cy = if cx = x ∧ cy = y then b else s.cell cx cy := by
  simp only [State.cell, State.setCell, Fin.getElem_fin, Vector.getElem_set, Fin.ext_iff]
  by_cases hx : x.val = cx.val
  · have hx' : x = cx := Fin.ext hx
    subst hx'
    by_cases hy : y.val = cy.val
    · simp [hy]
    · simp [hy, Ne.symm hy]
  · simp [hx, Ne.symm hx]

@[simp] theorem State.cell_clearDisplay (cx : Fin 64) (cy : Fin 32) : s.clearDisplay.cell cx cy = false := by
  simp [State.cell, State.clearDisplay]

/-- Two states with the same cells have the same display. -/
theorem State.disp_ext {s t : State} (h : ∀ x y, s.cell x y = t.cell x y) : s.disp = t.disp := by
  ext x hx y hy
  simpa [State.cell] using h ⟨x, hx⟩ ⟨y, hy⟩

/-- Two states with the same registers have the same register file. -/
theorem State.v_ext {s t : State} (h : ∀ r, s.reg r = t.reg r) : s.v = t.v := by
  refine Vector.ext fun r hr => ?_
  simpa [State.reg] using h ⟨r, hr⟩

/-- Two writes to one register: the later one stands. -/
@[simp] theorem State.setReg_setReg (r : Reg) (b c : Byte) : (s.setReg r b).setReg r c = s.setReg r c := by
  simp [State.setReg]

end Sys2Proof.Machine
end

