-- ==== Sys2Proof/Laws/Memory.lean ====
section
/-! SUPPORT. Memory: a read after a write, and that every memory operation keeps the canonical form
(20_memory.md R52, R63). -/

namespace Sys2Proof.Machine

variable (font : Font)

@[simp] theorem Memory.read_nil (a : Nat) : Memory.read font [] a = Memory.blank font a := rfl

@[simp] theorem Memory.read_cons (c : Host.Cell) (m : Memory) (a : Nat) :
    Memory.read font (c :: m) a = if c.1 = a then c.2 else Memory.read font m a := rfl

/-- An address below every listed one reads as reset left it. -/
theorem Memory.read_of_lt {m : Memory} {a : Nat} (h : ∀ c ∈ m, a < c.1) :
    Memory.read font m a = Memory.blank font a := by
  induction m with
  | nil => rfl
  | cons c m ih =>
    have hc := h c (by simp)
    simp only [Memory.read_cons]
    rw [if_neg (by omega)]
    exact ih fun d hd => h d (by simp [hd])

theorem Memory.wf_cons {c : Host.Cell} {m : Memory} :
    Memory.wf font (c :: m) = true ↔
      c.1 ≤ 0xFFF ∧ c.2 ≠ Memory.blank font c.1 ∧ (∀ d ∈ m, c.1 < d.1) ∧ Memory.wf font m = true := by
  simp [Memory.wf, and_assoc]

@[simp] theorem Memory.wf_nil : Memory.wf font [] = true := rfl

/-- Reading a list with a cell put in front of it, where the rest lists only higher addresses. -/
theorem Memory.read_consCell {m : Memory} {a : Nat} {b : Byte} (h : ∀ d ∈ m, a < d.1) (n : Nat) :
    Memory.read font (Memory.consCell font a b m) n = if n = a then b else Memory.read font m n := by
  unfold Memory.consCell
  split
  · split
    · subst_vars; exact Memory.read_of_lt font h
    · rfl
  · simp only [Memory.read_cons, eq_comm]

/-- A read of one byte after a write of one byte (R52, R63). -/
theorem Memory.read_write {m : Memory} (hm : Memory.wf font m = true) (a : Nat) (b : Byte) (n : Nat) :
    Memory.read font (Memory.write font m a b) n = if n = a then b else Memory.read font m n := by
  induction m with
  | nil => exact Memory.read_consCell font (by simp) n
  | cons c m ih =>
    obtain ⟨k, v⟩ := c
    obtain ⟨-, -, hlt, hwf⟩ := (Memory.wf_cons font).1 hm
    simp only [Memory.write]
    split
    · refine Memory.read_consCell font (fun d hd => ?_) n
      rcases List.mem_cons.1 hd with rfl | hd
      · assumption
      · have := hlt d hd; simp only at this; omega
    · split
      · subst_vars
        rw [Memory.read_consCell font hlt, Memory.read_cons]
        grind
      · rw [Memory.read_cons, Memory.read_cons, ih hwf]
        grind

theorem Memory.read_consCell_of_ne (m : Memory) {a n : Nat} (b : Byte) (h : n ≠ a) :
    Memory.read font (Memory.consCell font a b m) n = Memory.read font m n := by
  unfold Memory.consCell
  split
  · rfl
  · rw [Memory.read_cons, if_neg (Ne.symm h)]

/-- A write leaves every other byte, whatever the form of the list. -/
theorem Memory.read_write_of_ne (m : Memory) {a n : Nat} (b : Byte) (h : n ≠ a) :
    Memory.read font (Memory.write font m a b) n = Memory.read font m n := by
  induction m with
  | nil => exact Memory.read_consCell_of_ne font [] b h
  | cons c m ih =>
    obtain ⟨k, v⟩ := c
    simp only [Memory.write]
    split
    · exact Memory.read_consCell_of_ne font _ b h
    · split
      · next hk => rw [Memory.read_consCell_of_ne font _ b h, Memory.read_cons, if_neg (hk ▸ Ne.symm h)]
      · rw [Memory.read_cons, Memory.read_cons, ih]

theorem Memory.mem_consCell {m : Memory} {a : Nat} {b : Byte} {d : Host.Cell}
    (h : d ∈ Memory.consCell font a b m) : d.1 = a ∨ d ∈ m := by
  unfold Memory.consCell at h
  split at h
  · exact .inr h
  · rcases List.mem_cons.1 h with rfl | h
    · exact .inl rfl
    · exact .inr h

/-- A write lists no address but the one it stores to. -/
theorem Memory.mem_write {m : Memory} {a : Nat} {b : Byte} {d : Host.Cell}
    (h : d ∈ Memory.write font m a b) : d.1 = a ∨ d ∈ m := by
  induction m with
  | nil => exact Memory.mem_consCell font h
  | cons c m ih =>
    obtain ⟨k, v⟩ := c
    simp only [Memory.write] at h
    split at h
    · exact Memory.mem_consCell font h
    · split at h
      · rcases Memory.mem_consCell font h with h | h
        · exact .inl h
        · exact .inr (List.mem_cons_of_mem _ h)
      · rcases List.mem_cons.1 h with rfl | h
        · exact .inr (by simp)
        · rcases ih h with h | h
          · exact .inl h
          · exact .inr (List.mem_cons_of_mem _ h)

theorem Memory.wf_consCell {m : Memory} {a : Nat} {b : Byte} (ha : a ≤ 0xFFF) (h : ∀ d ∈ m, a < d.1)
    (hm : Memory.wf font m = true) : Memory.wf font (Memory.consCell font a b m) = true := by
  unfold Memory.consCell
  split
  · exact hm
  · exact (Memory.wf_cons font).2 ⟨ha, by assumption, h, hm⟩

/-- A write to an address of the memory keeps the canonical form. -/
theorem Memory.wf_write {m : Memory} (hm : Memory.wf font m = true) {a : Nat} (ha : a ≤ 0xFFF) (b : Byte) :
    Memory.wf font (Memory.write font m a b) = true := by
  induction m with
  | nil => exact Memory.wf_consCell font ha (by simp) rfl
  | cons c m ih =>
    obtain ⟨k, v⟩ := c
    obtain ⟨hk, hv, hlt, hwf⟩ := (Memory.wf_cons font).1 hm
    simp only [Memory.write]
    split
    · refine Memory.wf_consCell font ha (fun d hd => ?_) hm
      rcases List.mem_cons.1 hd with rfl | hd
      · assumption
      · have := hlt d hd; simp only at this; omega
    · split
      · subst_vars; exact Memory.wf_consCell font ha hlt hwf
      · refine (Memory.wf_cons font).2 ⟨hk, hv, fun d hd => ?_, ih hwf⟩
        rcases Memory.mem_write font hd with h | h
        · simp only; omega
        · exact hlt d h

/-- A listed memory is found again by its reads: two canonical memories that read the same are equal. -/
theorem Memory.ext_of_read {m m' : Memory} (hm : Memory.wf font m = true) (hm' : Memory.wf font m' = true)
    (h : ∀ a, Memory.read font m a = Memory.read font m' a) : m = m' := by
  induction m generalizing m' with
  | nil =>
    cases m' with
    | nil => rfl
    | cons d m' =>
      obtain ⟨-, hd, -, -⟩ := (Memory.wf_cons font).1 hm'
      have := h d.1
      simp only [Memory.read_nil, Memory.read_cons, if_true] at this
      exact absurd this.symm hd
  | cons c m ih =>
    obtain ⟨-, hc, hlt, hwf⟩ := (Memory.wf_cons font).1 hm
    cases m' with
    | nil =>
      have := h c.1
      simp only [Memory.read_nil, Memory.read_cons, if_true] at this
      exact absurd this hc
    | cons d m' =>
      obtain ⟨-, hd, hlt', hwf'⟩ := (Memory.wf_cons font).1 hm'
      have hkey : c.1 = d.1 := by
        rcases Nat.lt_trichotomy c.1 d.1 with hcd | hcd | hcd
        · have := h c.1
          rw [Memory.read_cons, if_pos rfl, Memory.read_of_lt font (m := d :: m') (fun e he => by
            rcases List.mem_cons.1 he with rfl | he
            · exact hcd
            · exact Nat.lt_trans hcd (hlt' e he))] at this
          exact absurd this hc
        · exact hcd
        · have := h d.1
          rw [Memory.read_cons font d, if_pos rfl, Memory.read_of_lt font (m := c :: m) (fun e he => by
            rcases List.mem_cons.1 he with rfl | he
            · exact hcd
            · exact Nat.lt_trans hcd (hlt e he))] at this
          exact absurd this.symm hd
      have hval : c.2 = d.2 := by
        have := h c.1
        simpa [Memory.read_cons, hkey] using this
      have htail : m = m' := by
        refine ih hwf hwf' fun a => ?_
        by_cases ha : a = c.1
        · subst ha
          rw [Memory.read_of_lt font hlt, Memory.read_of_lt font (fun e he => hkey ▸ hlt' e he)]
        · have := h a
          rwa [Memory.read_cons, Memory.read_cons, if_neg (Ne.symm ha), if_neg (hkey ▸ Ne.symm ha)] at this
      rw [htail, Prod.ext hkey hval]

/-! ### The same for a state -/

/-- The memory of the state is in canonical form. -/
theorem State.readByte_writeByte {s : State} (hm : Memory.wf s.cfg.font s.mem = true) (a : Nat) (b : Byte) (n : Nat) :
    (s.writeByte a b).readByte n = if n = a then b else s.readByte n :=
  Memory.read_write s.cfg.font hm a b n

theorem State.wf_writeByte {s : State} (hm : Memory.wf s.cfg.font s.mem = true) {a : Nat} (ha : a ≤ 0xFFF) (b : Byte) :
    Memory.wf (s.writeByte a b).cfg.font (s.writeByte a b).mem = true :=
  Memory.wf_write s.cfg.font hm ha b

/-- A store of one byte leaves every other byte, in every state. -/
theorem State.readByte_writeByte_of_ne (s : State) {a n : Nat} (b : Byte) (h : n ≠ a) :
    (s.writeByte a b).readByte n = s.readByte n :=
  Memory.read_write_of_ne s.cfg.font s.mem b h

end Sys2Proof.Machine
end

