-- ==== Sys2Proof/Laws/Ops.lean ====
section
/-! SUPPORT. For each shared operation, what it can do: the checks that may raise a fault, the stack, and the block
transfers. -/

namespace Sys2Proof.Machine

/-! ### Faults -/

/-- A range check passes exactly when the last byte is in memory, and else raises AddressOutOfRange (R170). -/
theorem rangeCheck_cases (w : Word) (m : Nat) (s : State) (k : Result) :
    (s.i.toNat + m ≤ 0xFFF ∧ rangeCheck w m s k = k) ∨
      (0xFFF < s.i.toNat + m ∧
        rangeCheck w m s k = .fault (.addressOutOfRange w s.ia (max s.i.toNat 0x1000))) := by
  unfold rangeCheck raise
  split
  · exact .inr ⟨by omega, rfl⟩
  · exact .inl ⟨by omega, rfl⟩

theorem rangeCheck_of_le {w : Word} {m : Nat} {s : State} (h : s.i.toNat + m ≤ 0xFFF) (k : Result) :
    rangeCheck w m s k = k := by
  rcases rangeCheck_cases w m s k with h' | h'
  · exact h'.2
  · omega

theorem rangeCheck_of_gt {w : Word} {m : Nat} {s : State} (h : 0xFFF < s.i.toNat + m) (k : Result) :
    rangeCheck w m s k = .fault (.addressOutOfRange w s.ia (max s.i.toNat 0x1000)) := by
  rcases rangeCheck_cases w m s k with h' | h'
  · omega
  · exact h'.2

/-- If a range check answers a next state, every byte is in memory and the rest of the rule has answered it. -/
theorem rangeCheck_next {w : Word} {m : Nat} {s t : State} {k : Result} (h : rangeCheck w m s k = .next t) :
    s.i.toNat + m ≤ 0xFFF ∧ k = .next t := by
  rcases rangeCheck_cases w m s k with ⟨hle, hk⟩ | ⟨-, hk⟩
  · exact ⟨hle, hk ▸ h⟩
  · rw [hk] at h; cases h

/-! ### The stack -/

theorem push_of_lt {w a : Word} {s : State} (h : s.sp.val < 16) (k : State → Result) :
    push w a s k = k { s with stack := s.stack.set s.sp.val a h, sp := ⟨s.sp.val + 1, by omega⟩ } := by
  simp [push, h]

theorem push_of_ge {w a : Word} {s : State} (h : 16 ≤ s.sp.val) (k : State → Result) :
    push w a s k = .fault (.stackOverflow w s.ia) := by
  simp [push, raise, Nat.not_lt.2 h]

theorem pop_of_pos {w : Word} {s : State} (h : s.sp.val ≠ 0) (k : Word → State → Result) :
    pop w s k = k (s.stack[s.sp.val - 1]'(by omega)) { s with sp := ⟨s.sp.val - 1, by omega⟩ } := by
  simp [pop, h]

theorem pop_of_zero {w : Word} {s : State} (h : s.sp.val = 0) (k : Word → State → Result) :
    pop w s k = .fault (.stackUnderflow w s.ia) := by
  simp [pop, raise, h]

/-! ### Block transfers -/

@[simp] theorem mem_regsUpTo {x r : Reg} : r ∈ regsUpTo x ↔ r ≤ x := by simp [regsUpTo]

/-- A block store changes memory alone. -/
theorem storeEach_eq (base : Nat) (rs : List Reg) (s : State) :
    storeEach base rs s = { s with mem := (storeEach base rs s).mem } := by
  induction rs generalizing s with
  | nil => rfl
  | cons r rs ih => rw [storeEach, ih]; rfl

@[simp] theorem storeEach_reg (base : Nat) (rs : List Reg) (s : State) (q : Reg) :
    (storeEach base rs s).reg q = s.reg q := by
  rw [storeEach_eq]; rfl

/-- A block store inside memory keeps the canonical form. -/
theorem storeEach_memOk {base : Nat} {rs : List Reg} {s : State} (hm : s.memOk)
    (h : ∀ r ∈ rs, base + r.val ≤ 0xFFF) : (storeEach base rs s).memOk := by
  induction rs generalizing s with
  | nil => exact hm
  | cons r rs ih =>
    exact ih (State.wf_writeByte hm (h r (by simp)) _) fun q hq => h q (by simp [hq])

/-- After a block store the byte of a stored register is its value, and every other byte is as before (R177). -/
theorem storeEach_readByte {base : Nat} {rs : List Reg} {s : State} (hm : s.memOk)
    (h : ∀ r ∈ rs, base + r.val ≤ 0xFFF) (a : Nat) :
    (∀ r ∈ rs, a = base + r.val → (storeEach base rs s).readByte a = s.reg r) ∧
      ((∀ r ∈ rs, a ≠ base + r.val) → (storeEach base rs s).readByte a = s.readByte a) := by
  induction rs generalizing s with
  | nil => simp [storeEach]
  | cons r rs ih =>
    have hr := h r (by simp)
    have hrs : ∀ q ∈ rs, base + q.val ≤ 0xFFF := fun q hq => h q (by simp [hq])
    obtain ⟨hin, hout⟩ := ih (State.wf_writeByte hm hr (s.reg r)) hrs
    simp only [State.readByte_writeByte hm, State.reg_writeByte] at hin hout
    refine ⟨fun q hq hqa => ?_, fun hq => ?_⟩
    · by_cases hmem : q ∈ rs
      · exact hin q hmem hqa
      · obtain rfl : q = r := by simpa [hmem] using hq
        have hno : ∀ p ∈ rs, a ≠ base + p.val := by
          intro p hp hpa
          have : p = q := Fin.ext (by omega)
          exact hmem (this ▸ hp)
        rw [storeEach, hout hno, if_pos hqa]
    · rw [storeEach, hout fun q' hq' => hq q' (by simp [hq']), if_neg (hq r (by simp))]

/-- A block store leaves every byte outside its addresses, in every state. -/
theorem storeEach_readByte_of_ne {base : Nat} {rs : List Reg} {a : Nat} (h : ∀ r ∈ rs, a ≠ base + r.val) (s : State) :
    (storeEach base rs s).readByte a = s.readByte a := by
  induction rs generalizing s with
  | nil => rfl
  | cons r rs ih =>
    rw [storeEach, ih fun q hq => h q (by simp [hq]), State.readByte_writeByte_of_ne s _ (h r (by simp))]

/-- A block load changes the registers alone. -/
theorem loadEach_eq (base : Nat) (rs : List Reg) (s : State) :
    loadEach base rs s = { s with v := (loadEach base rs s).v } := by
  induction rs generalizing s with
  | nil => rfl
  | cons r rs ih => rw [loadEach, ih]; rfl

@[simp] theorem loadEach_readByte (base : Nat) (rs : List Reg) (s : State) (a : Nat) :
    (loadEach base rs s).readByte a = s.readByte a := by
  rw [loadEach_eq]; rfl

/-- After a block load a register of the list holds its byte, and every other register is as before (R178). -/
theorem loadEach_reg (base : Nat) (rs : List Reg) (s : State) (q : Reg) :
    (loadEach base rs s).reg q = if q ∈ rs then s.readByte (base + q.val) else s.reg q := by
  induction rs generalizing s with
  | nil => simp [loadEach]
  | cons r rs ih =>
    rw [loadEach, ih]
    simp only [State.readByte_setReg, State.reg_setReg, List.mem_cons]
    by_cases h1 : q ∈ rs
    · simp [h1]
    · by_cases h2 : q = r
      · subst h2; simp [h1]
      · simp [h1, h2]

/-- Under QUIRK_INDEX_INC = yes I moves past the bytes of the transfer, mod 2^16; else it stays (R176). -/
theorem bumpIndex_i (s : State) (x : Reg) :
    (s.bumpIndex x).i.toNat =
      if s.cfg.quirkIndexInc = .yes then (s.i.toNat + x.val + 1) % 65536 else s.i.toNat := by
  unfold State.bumpIndex
  cases s.cfg.quirkIndexInc <;> simp [BitVec.toNat_add]
  omega

/-- Nothing but I moves. -/
theorem bumpIndex_eq (s : State) (x : Reg) : s.bumpIndex x = { s with i := (s.bumpIndex x).i } := by
  unfold State.bumpIndex; split <;> rfl

@[simp] theorem bumpIndex_reg (s : State) (x q : Reg) : (s.bumpIndex x).reg q = s.reg q := by
  rw [bumpIndex_eq]; rfl

@[simp] theorem bumpIndex_readByte (s : State) (x : Reg) (a : Nat) : (s.bumpIndex x).readByte a = s.readByte a := by
  rw [bumpIndex_eq]; rfl

/-! ### Byte stores of an image (R252) -/

/-- An image load changes memory alone. -/
theorem storeBytes_eq (a : Nat) (l : List Byte) (s : State) :
    storeBytes a l s = { s with mem := (storeBytes a l s).mem } := by
  induction l generalizing a s with
  | nil => rfl
  | cons b l ih => rw [storeBytes, ih]; rfl

theorem storeBytes_memOk {a : Nat} {l : List Byte} {s : State} (hm : s.memOk) (h : a + l.length ≤ 0x1000) :
    (storeBytes a l s).memOk := by
  induction l generalizing a s with
  | nil => exact hm
  | cons b l ih =>
    simp only [List.length_cons] at h
    exact ih (State.wf_writeByte hm (by omega) b) (by omega)

/-- A stored byte reads back; every other byte is as before. -/
theorem storeBytes_readByte {a : Nat} {l : List Byte} {s : State} (hm : s.memOk) (h : a + l.length ≤ 0x1000)
    (n : Nat) :
    (storeBytes a l s).readByte n = if hn : a ≤ n ∧ n < a + l.length then l[n - a] else s.readByte n := by
  induction l generalizing a s with
  | nil => simp [storeBytes]
  | cons b l ih =>
    simp only [List.length_cons] at h
    rw [storeBytes, ih (State.wf_writeByte hm (by omega) b) (by omega), State.readByte_writeByte hm]
    by_cases h1 : a + 1 ≤ n ∧ n < a + 1 + l.length
    · rw [dif_pos h1, dif_pos ⟨by omega, by simp; omega⟩]
      have : n - a = (n - (a + 1)) + 1 := by omega
      simp [this]
    · rw [dif_neg h1]
      by_cases h2 : n = a
      · subst h2; simp
      · rw [if_neg h2, dif_neg]; simp; omega

/-! ### Operand forms and flags -/

@[simp] theorem lowNibble_val (b : Byte) : (lowNibble b).val = b.toNat % 16 := by simp [lowNibble]

theorem offsetReg_val (nnn : Word) : (offsetReg nnn).val = nnn.toNat / 256 % 16 := by
  simp [offsetReg, Nat.shiftRight_eq_div_pow]

theorem glyphAddress_toNat (k : Fin 16) : (glyphAddress k).toNat = 0x050 + 5 * k.val := by
  rw [glyphAddress, BitVec.toNat_ofNat, Nat.mod_eq_of_lt]; omega

theorem flagByte_toNat (c : Bool) : (flagByte c).toNat = if c then 1 else 0 := by cases c <;> rfl

theorem shiftRightFlag_toNat (b : Byte) : (shiftRightFlag b).toNat = b.toNat % 2 := by revert b; decide

theorem shiftLeftFlag_toNat (b : Byte) : (shiftLeftFlag b).toNat = b.toNat / 128 := by revert b; decide

theorem lowestKey_eq_none {s : State} : lowestKey s = none ↔ ∀ k : Fin 16, s.key[k] = false := by
  simp [lowestKey, State.keyDown]

/-- A pressed key below which no key is pressed is the lowest (R203). -/
theorem lowestKey_eq_some {s : State} {k : Fin 16} (hk : s.key[k] = true)
    (h : ∀ j : Fin 16, j < k → s.key[j] = false) : lowestKey s = some k := by
  unfold lowestKey
  rw [List.find?_eq_some_iff_getElem]
  refine ⟨hk, k.val, by simp, by simp, fun j hjk => ?_⟩
  have := h ⟨j, by omega⟩ (Fin.lt_def.2 hjk)
  simp only [List.getElem_finRange, State.keyDown, Fin.cast_mk]
  rw [this]; rfl

end Sys2Proof.Machine
end

