-- ==== Sys2Proof/Laws/Display.lean ====
section
/-! SUPPORT. The sprite compositor: what the loops of DXYN do, cell by cell (44_display.md R192 to R194). -/

namespace Sys2Proof.Machine

/-! ### The compositor changes the display and VF alone -/

/-- `t` is `s` but for the display and VF. -/
def DrawFrame (s t : State) : Prop :=
  t = { s with disp := t.disp, v := t.v } ∧ ∀ r, r ≠ VF → t.reg r = s.reg r

theorem DrawFrame.refl (s : State) : DrawFrame s s := ⟨rfl, fun _ _ => rfl⟩

theorem DrawFrame.trans {s t u : State} (h : DrawFrame s t) (h' : DrawFrame t u) : DrawFrame s u := by
  refine ⟨?_, fun r hr => (h'.2 r hr).trans (h.2 r hr)⟩
  rw [h'.1, h.1]

theorem DrawFrame.readByte {s t : State} (h : DrawFrame s t) (a : Nat) : t.readByte a = s.readByte a := by
  rw [h.1]; rfl

theorem DrawFrame.i {s t : State} (h : DrawFrame s t) : t.i = s.i := by rw [h.1]

theorem drawFrame_drawPixel (x y : Nat) (s : State) : DrawFrame s (drawPixel x y s) := by
  unfold drawPixel
  split
  · exact ⟨rfl, fun r hr => by simp [hr]⟩
  · exact DrawFrame.refl s

theorem drawFrame_drawColumns (b : Byte) (x0 y : Nat) (cs : List Nat) (s : State) :
    DrawFrame s (drawColumns b x0 y cs s) := by
  induction cs generalizing s with
  | nil => exact DrawFrame.refl s
  | cons c cs ih =>
    rw [drawColumns]
    refine DrawFrame.trans ?_ (ih _)
    split
    · exact drawFrame_drawPixel _ _ s
    · exact DrawFrame.refl s

theorem drawFrame_drawRows (x0 y0 : Nat) (rs : List Nat) (s : State) : DrawFrame s (drawRows x0 y0 rs s) := by
  induction rs generalizing s with
  | nil => exact DrawFrame.refl s
  | cons r rs ih => exact DrawFrame.trans (drawFrame_drawColumns _ _ _ _ s) (ih _)

theorem drawFrame_drawSprite (x0 y0 rows : Nat) (s : State) : DrawFrame s (drawSprite x0 y0 rows s) :=
  DrawFrame.trans ⟨rfl, fun r hr => by simp [hr]⟩ (drawFrame_drawRows x0 y0 _ _)

/-! ### The cells and the flag after a set of flips -/

/-- `t` is `s` with the cells of `p` flipped, and VF set if one of them was lit. -/
structure Flipped (p : Fin 64 → Fin 32 → Prop) (s t : State) : Prop where
  on : ∀ x y, p x y → t.cell x y = !s.cell x y
  off : ∀ x y, ¬p x y → t.cell x y = s.cell x y
  hit : (∃ x y, p x y ∧ s.cell x y = true) → t.reg VF = 1
  miss : (¬∃ x y, p x y ∧ s.cell x y = true) → t.reg VF = s.reg VF

theorem Flipped.refl (s : State) : Flipped (fun _ _ => False) s s :=
  ⟨fun _ _ h => h.elim, fun _ _ _ => rfl, fun ⟨_, _, h, _⟩ => h.elim, fun _ => rfl⟩

theorem Flipped.congr {p q : Fin 64 → Fin 32 → Prop} {s t : State} (h : Flipped p s t) (hpq : ∀ x y, p x y ↔ q x y) :
    Flipped q s t := by
  have : p = q := by funext x y; exact propext (hpq x y)
  exact this ▸ h

/-- Flips of disjoint sets of cells add up: a cell is flipped at most once (R194). -/
theorem Flipped.trans {p q : Fin 64 → Fin 32 → Prop} {s t u : State} (h : Flipped p s t) (h' : Flipped q t u)
    (hd : ∀ x y, p x y → ¬q x y) : Flipped (fun x y => p x y ∨ q x y) s u := by
  refine ⟨?_, ?_, ?_, ?_⟩
  · rintro x y (hp | hq)
    · rw [h'.off x y (hd x y hp), h.on x y hp]
    · rw [h'.on x y hq, h.off x y fun hp => hd x y hp hq]
  · intro x y hn
    rw [h'.off x y fun hq => hn (.inr hq), h.off x y fun hp => hn (.inl hp)]
  · rintro ⟨x, y, hp | hq, hl⟩
    · by_cases hx : ∃ x y, q x y ∧ t.cell x y = true
      · exact h'.hit hx
      · rw [h'.miss hx, h.hit ⟨x, y, hp, hl⟩]
    · exact h'.hit ⟨x, y, hq, by rw [h.off x y fun hp => hd x y hp hq, hl]⟩
  · intro hn
    have h1 : ¬∃ x y, p x y ∧ s.cell x y = true := fun ⟨x, y, hp, hl⟩ => hn ⟨x, y, .inl hp, hl⟩
    have h2 : ¬∃ x y, q x y ∧ t.cell x y = true := by
      rintro ⟨x, y, hq, hl⟩
      rw [h.off x y fun hp => hd x y hp hq] at hl
      exact hn ⟨x, y, .inr hq, hl⟩
    rw [h'.miss h2, h.miss h1]

theorem flipped_drawPixel (x y : Nat) (s : State) :
    Flipped (fun cx cy => cx.val = x ∧ cy.val = y) s (drawPixel x y s) := by
  unfold drawPixel
  split
  · next h =>
    have key : ∀ cx : Fin 64, ∀ cy : Fin 32, (cx.val = x ∧ cy.val = y) ↔ (cx = ⟨x, h.1⟩ ∧ cy = ⟨y, h.2⟩) := by
      intro cx cy; simp [Fin.ext_iff]
    refine ⟨?_, ?_, ?_, ?_⟩
    · intro cx cy hc
      rw [key] at hc
      obtain ⟨rfl, rfl⟩ := hc
      simp [State.cell_setCell]
    · intro cx cy hc
      rw [key] at hc
      rw [State.cell_setCell, if_neg hc]; rfl
    · rintro ⟨cx, cy, hc, hl⟩
      rw [key] at hc
      obtain ⟨rfl, rfl⟩ := hc
      simp [collisionFlag, hl]
    · intro hn
      have : s.cell ⟨x, h.1⟩ ⟨y, h.2⟩ = false := by
        rw [← Bool.not_eq_true]
        exact fun hl => hn ⟨_, _, ⟨rfl, rfl⟩, hl⟩
      simp [collisionFlag, this]
  · next h =>
    refine (Flipped.refl s).congr fun cx cy => ?_
    constructor
    · exact False.elim
    · rintro ⟨rfl, rfl⟩; exact h ⟨cx.isLt, cy.isLt⟩

theorem flipped_drawColumns (b : Byte) (x0 y : Nat) (cs : List Nat) (hcs : cs.Nodup) (s : State) :
    Flipped (fun cx cy => cy.val = y ∧ ∃ c ∈ cs, cx.val = x0 + c ∧ spriteBit b c = true) s
      (drawColumns b x0 y cs s) := by
  induction cs generalizing s with
  | nil => exact (Flipped.refl s).congr (by simp)
  | cons c cs ih =>
    rw [List.nodup_cons] at hcs
    rw [drawColumns]
    by_cases hb : spriteBit b c = true
    · rw [if_pos hb]
      refine ((flipped_drawPixel (x0 + c) y s).trans (ih hcs.2 _) ?_).congr ?_
      · rintro cx cy ⟨hx, -⟩ ⟨-, c', hc', hx', -⟩
        have : c' = c := by omega
        exact hcs.1 (this ▸ hc')
      · intro cx cy
        simp only [List.mem_cons, exists_eq_or_imp]
        tauto
    · rw [if_neg hb]
      refine (ih hcs.2 s).congr fun cx cy => ?_
      simp only [List.mem_cons, exists_eq_or_imp, hb]
      tauto

theorem flipped_drawRows (x0 y0 : Nat) (rs : List Nat) (hrs : rs.Nodup) (s : State) :
    Flipped (fun cx cy => ∃ r ∈ rs, cy.val = y0 + r ∧ ∃ c < 8, cx.val = x0 + c ∧
      spriteBit (s.readByte (s.i.toNat + r)) c = true) s (drawRows x0 y0 rs s) := by
  induction rs generalizing s with
  | nil => exact (Flipped.refl s).congr (by simp)
  | cons r rs ih =>
    rw [List.nodup_cons] at hrs
    rw [drawRows]
    have hf := drawFrame_drawColumns (s.readByte (s.i.toNat + r)) x0 (y0 + r) (List.range 8) s
    refine ((flipped_drawColumns _ x0 (y0 + r) (List.range 8) List.nodup_range s).trans (ih hrs.2 _) ?_).congr ?_
    · rintro cx cy ⟨hy, -⟩ ⟨r', hr', hy', -⟩
      have : r' = r := by omega
      exact hrs.1 (this ▸ hr')
    · intro cx cy
      simp only [List.mem_cons, exists_eq_or_imp, List.mem_range, hf.readByte, hf.i]

/-- The cells a sprite covers, as the loops reach them. -/
theorem spriteCovers_iff (s : State) (x0 y0 rows : Nat) (x : Fin 64) (y : Fin 32) :
    spriteCovers s x0 y0 rows x y = true ↔
      ∃ r < rows, y.val = y0 + r ∧ ∃ c < 8, x.val = x0 + c ∧
        spriteBit (s.readByte (s.i.toNat + r)) c = true := by
  simp only [spriteCovers, Bool.and_eq_true, decide_eq_true_eq]
  constructor
  · rintro ⟨⟨h1, h2, h3, h4⟩, hb⟩
    exact ⟨y.val - y0, by omega, by omega, x.val - x0, by omega, by omega, hb⟩
  · rintro ⟨r, hr, hy, c, hc, hx, hb⟩
    refine ⟨⟨by omega, by omega, by omega, by omega⟩, ?_⟩
    rwa [show y.val - y0 = r by omega, show x.val - x0 = c by omega]

/-- A sprite flips exactly the cells it covers, on a flag that was cleared (R192, R193, R194). -/
theorem flipped_drawSprite (x0 y0 rows : Nat) (s : State) :
    Flipped (fun x y => spriteCovers s x0 y0 rows x y = true) (s.setReg VF 0) (drawSprite x0 y0 rows s) := by
  refine (flipped_drawRows x0 y0 (List.range rows) List.nodup_range _).congr fun x y => ?_
  rw [spriteCovers_iff]
  simp

end Sys2Proof.Machine
end

