-- ==== Sys2Proof/Laws/Frame.lean ====
section
/-! SUPPORT. The frame of each shared operation (Safety.lean), so that an instruction's frame is read off the
operations it is made of. -/

namespace Sys2Proof.Machine

theorem SameHostSide.refl (s : State) : SameHostSide s s := ⟨rfl, rfl, rfl, rfl, rfl, rfl, rfl⟩

theorem SameHostSide.trans {s t u : State} (h : SameHostSide s t) (h' : SameHostSide t u) : SameHostSide s u := by
  obtain ⟨a, b, c, d, e, f, g⟩ := h
  obtain ⟨a', b', c', d', e', f', g'⟩ := h'
  exact ⟨a'.trans a, b'.trans b, c'.trans c, d'.trans d, e'.trans e, f'.trans f, g'.trans g⟩

theorem Frame.refl (s : State) : Frame [] [] s s :=
  ⟨fun _ _ => rfl, fun _ => rfl, fun _ => rfl, fun _ => ⟨rfl, rfl⟩, fun _ => ⟨rfl, rfl⟩, fun _ => ⟨rfl, rfl⟩,
    fun _ _ => rfl, fun _ _ _ => rfl, SameHostSide.refl _⟩

/-- A frame allows more when its lists grow. -/
theorem Frame.mono {rs rs' : List Reg} {ps ps' : List Part} {s t : State} (h : Frame rs ps s t) (hr : rs ⊆ rs')
    (hp : ps ⊆ ps') : Frame rs' ps' s t where
  regs r hn := h.regs r fun hm => hn (hr hm)
  pc hn := h.pc fun hm => hn (hp hm)
  index hn := h.index fun hm => hn (hp hm)
  stack hn := h.stack fun hm => hn (hp hm)
  delay hn := h.delay fun hm => hn (hp hm)
  sound hn := h.sound fun hm => hn (hp hm)
  memory hn := h.memory fun hm => hn (hp hm)
  display hn := h.display fun hm => hn (hp hm)
  host := h.host

/-- Two operations in a row write what the one or the other writes. -/
theorem Frame.trans {rs rs' : List Reg} {ps ps' : List Part} {s t u : State} (h : Frame rs ps s t)
    (h' : Frame rs' ps' t u) : Frame (rs ++ rs') (ps ++ ps') s u := by
  have left {α : Type} {l l' : List α} {a : α} (hn : a ∉ l ++ l') : a ∉ l := fun hm => hn (by simp [hm])
  have right {α : Type} {l l' : List α} {a : α} (hn : a ∉ l ++ l') : a ∉ l' := fun hm => hn (by simp [hm])
  refine ⟨?_, ?_, ?_, ?_, ?_, ?_, ?_, ?_, h.host.trans h'.host⟩
  · exact fun r hn => (h'.regs r (right hn)).trans (h.regs r (left hn))
  · exact fun hn => (h'.pc (right hn)).trans (h.pc (left hn))
  · exact fun hn => (h'.index (right hn)).trans (h.index (left hn))
  · exact fun hn => ⟨(h'.stack (right hn)).1.trans (h.stack (left hn)).1,
      (h'.stack (right hn)).2.trans (h.stack (left hn)).2⟩
  · exact fun hn => ⟨(h'.delay (right hn)).1.trans (h.delay (left hn)).1,
      (h'.delay (right hn)).2.trans (h.delay (left hn)).2⟩
  · exact fun hn => ⟨(h'.sound (right hn)).1.trans (h.sound (left hn)).1,
      (h'.sound (right hn)).2.trans (h.sound (left hn)).2⟩
  · exact fun hn a => (h'.memory (right hn) a).trans (h.memory (left hn) a)
  · exact fun hn x y => (h'.display (right hn) x y).trans (h.display (left hn) x y)

theorem frame_setReg (s : State) (r : Reg) (b : Byte) : Frame [r] [] s (s.setReg r b) :=
  ⟨fun q hq => State.reg_setReg_of_ne s (by simpa using hq) b, fun _ => rfl, fun _ => rfl, fun _ => ⟨rfl, rfl⟩,
    fun _ => ⟨rfl, rfl⟩, fun _ => ⟨rfl, rfl⟩, fun _ _ => rfl, fun _ _ _ => rfl, SameHostSide.refl _⟩

theorem frame_setResultAndFlag (s : State) (x : Reg) (b f : Byte) : Frame [x, VF] [] s (s.setResultAndFlag x b f) :=
  (frame_setReg s x b).trans (frame_setReg (s.setReg x b) VF f)

theorem frame_setIndex (s : State) (a : Word) : Frame [] [.index] s (s.setIndex a) :=
  ⟨fun _ _ => rfl, fun _ => rfl, fun h => absurd (by simp) h, fun _ => ⟨rfl, rfl⟩, fun _ => ⟨rfl, rfl⟩,
    fun _ => ⟨rfl, rfl⟩, fun _ _ => rfl, fun _ _ _ => rfl, SameHostSide.refl _⟩

theorem frame_setPc (s : State) (a : Word) : Frame [] [.pc] s (s.setPc a) :=
  ⟨fun _ _ => rfl, fun h => absurd (by simp) h, fun _ => rfl, fun _ => ⟨rfl, rfl⟩, fun _ => ⟨rfl, rfl⟩,
    fun _ => ⟨rfl, rfl⟩, fun _ _ => rfl, fun _ _ _ => rfl, SameHostSide.refl _⟩

theorem frame_skipIf (s : State) (c : Bool) : Frame [] [.pc] s (s.skipIf c) := by
  cases c
  · exact (Frame.refl s).mono (by simp) (by simp)
  · exact frame_setPc s _

theorem frame_setDelay (s : State) (b : Byte) : Frame [] [.delay] s (s.setDelay b) :=
  ⟨fun _ _ => rfl, fun _ => rfl, fun _ => rfl, fun _ => ⟨rfl, rfl⟩, fun h => absurd (by simp) h,
    fun _ => ⟨rfl, rfl⟩, fun _ _ => rfl, fun _ _ _ => rfl, SameHostSide.refl _⟩

theorem frame_setSound (s : State) (b : Byte) : Frame [] [.sound] s (s.setSound b) :=
  ⟨fun _ _ => rfl, fun _ => rfl, fun _ => rfl, fun _ => ⟨rfl, rfl⟩, fun _ => ⟨rfl, rfl⟩,
    fun h => absurd (by simp) h, fun _ _ => rfl, fun _ _ _ => rfl, SameHostSide.refl _⟩

theorem frame_clearDisplay (s : State) : Frame [] [.display] s s.clearDisplay :=
  ⟨fun _ _ => rfl, fun _ => rfl, fun _ => rfl, fun _ => ⟨rfl, rfl⟩, fun _ => ⟨rfl, rfl⟩, fun _ => ⟨rfl, rfl⟩,
    fun _ _ => rfl, fun h => absurd (by simp) h, SameHostSide.refl _⟩

theorem frame_writeByte (s : State) (a : Nat) (b : Byte) : Frame [] [.memory] s (s.writeByte a b) :=
  ⟨fun _ _ => rfl, fun _ => rfl, fun _ => rfl, fun _ => ⟨rfl, rfl⟩, fun _ => ⟨rfl, rfl⟩, fun _ => ⟨rfl, rfl⟩,
    fun h => absurd (by simp) h, fun _ _ _ => rfl, SameHostSide.refl _⟩

theorem frame_storeEach (base : Nat) (rs : List Reg) (s : State) : Frame [] [.memory] s (storeEach base rs s) := by
  rw [storeEach_eq]
  exact ⟨fun _ _ => rfl, fun _ => rfl, fun _ => rfl, fun _ => ⟨rfl, rfl⟩, fun _ => ⟨rfl, rfl⟩, fun _ => ⟨rfl, rfl⟩,
    fun h => absurd (by simp) h, fun _ _ _ => rfl, SameHostSide.refl _⟩

theorem frame_loadEach (base : Nat) (rs : List Reg) (s : State) : Frame rs [] s (loadEach base rs s) := by
  have hreg := loadEach_reg base rs s
  rw [loadEach_eq] at hreg ⊢
  exact ⟨fun q hq => by rw [hreg q, if_neg hq], fun _ => rfl, fun _ => rfl, fun _ => ⟨rfl, rfl⟩,
    fun _ => ⟨rfl, rfl⟩, fun _ => ⟨rfl, rfl⟩, fun _ _ => rfl, fun _ _ _ => rfl, SameHostSide.refl _⟩

/-- I moves under QUIRK_INDEX_INC = yes alone (R176). -/
theorem frame_bumpIndex (s : State) (x : Reg) :
    Frame [] (if s.cfg.quirkIndexInc = .yes then [.index] else []) s (s.bumpIndex x) := by
  unfold State.bumpIndex
  cases s.cfg.quirkIndexInc
  · exact frame_setIndex s _
  · exact Frame.refl s

theorem frame_drawSprite (x0 y0 rows : Nat) (s : State) : Frame [VF] [.display] s (drawSprite x0 y0 rows s) := by
  obtain ⟨heq, hreg⟩ := drawFrame_drawSprite x0 y0 rows s
  rw [heq] at hreg ⊢
  exact ⟨fun q hq => hreg q (by simpa using hq), fun _ => rfl, fun _ => rfl, fun _ => ⟨rfl, rfl⟩,
    fun _ => ⟨rfl, rfl⟩, fun _ => ⟨rfl, rfl⟩, fun _ _ => rfl, fun h => absurd (by simp) h, SameHostSide.refl _⟩

end Sys2Proof.Machine
end

