-- ==== Sys2Proof/Laws/Host.lean ====
section
/-! SUPPORT. What the host's operations and the waiting inputs do to a state. -/

namespace Sys2Proof.Machine

/-- `t` is `s` but for the keypad, the timers and the inputs: what the host reaches between cycles. -/
def HostFrame (s t : State) : Prop :=
  t = { s with key := t.key, dt := t.dt, st := t.st, dtLast := t.dtLast, stLast := t.stLast,
               now := t.now, rnd := t.rnd, inputs := t.inputs, freeIdx := t.freeIdx }

theorem HostFrame.refl (s : State) : HostFrame s s := rfl

theorem HostFrame.trans {s t u : State} (h : HostFrame s t) (h' : HostFrame t u) : HostFrame s u := by
  unfold HostFrame at *; rw [h', h]

theorem HostFrame.readByte {s t : State} (h : HostFrame s t) (a : Nat) : t.readByte a = s.readByte a := by
  rw [h]; rfl

theorem HostFrame.memOk {s t : State} (h : HostFrame s t) (hm : s.memOk) : t.memOk := by rw [h]; exact hm

theorem HostFrame.pc {s t : State} (h : HostFrame s t) : t.pc = s.pc := by rw [h]

theorem HostFrame.cfg {s t : State} (h : HostFrame s t) : t.cfg = s.cfg := by rw [h]

theorem HostFrame.run {s t : State} (h : HostFrame s t) : t.run = s.run := by rw [h]

theorem HostFrame.stack {s t : State} (h : HostFrame s t) : t.stack = s.stack := by rw [h]

theorem hostFrame_tickDelay (s : State) (now : Nat) : HostFrame s (s.tickDelay now) := by
  unfold State.tickDelay; split <;> rfl

theorem hostFrame_tickSound (s : State) (now : Nat) : HostFrame s (s.tickSound now) := by
  unfold State.tickSound; split <;> rfl

/-! ### The timer check, field by field -/

section ticks

variable (s : State) (now : Nat)

@[simp] theorem tickDelay_dt :
    (s.tickDelay now).dt = if timerDue s s.dt s.dtLast now then s.dt - 1 else s.dt := by
  unfold State.tickDelay; split <;> rfl

@[simp] theorem tickDelay_dtLast :
    (s.tickDelay now).dtLast = if timerDue s s.dt s.dtLast now then now else s.dtLast := by
  unfold State.tickDelay; split <;> rfl

@[simp] theorem tickDelay_st : (s.tickDelay now).st = s.st := by unfold State.tickDelay; split <;> rfl
@[simp] theorem tickDelay_stLast : (s.tickDelay now).stLast = s.stLast := by unfold State.tickDelay; split <;> rfl
@[simp] theorem tickDelay_cfg : (s.tickDelay now).cfg = s.cfg := by unfold State.tickDelay; split <;> rfl

@[simp] theorem timerDue_tickDelay (b : Byte) (last n : Nat) :
    timerDue (s.tickDelay now) b last n = timerDue s b last n := by
  simp [timerDue]

@[simp] theorem tickSound_st :
    (s.tickSound now).st = if timerDue s s.st s.stLast now then s.st - 1 else s.st := by
  unfold State.tickSound; split <;> rfl

@[simp] theorem tickSound_stLast :
    (s.tickSound now).stLast = if timerDue s s.st s.stLast now then now else s.stLast := by
  unfold State.tickSound; split <;> rfl

@[simp] theorem tickSound_dt : (s.tickSound now).dt = s.dt := by unfold State.tickSound; split <;> rfl
@[simp] theorem tickSound_dtLast : (s.tickSound now).dtLast = s.dtLast := by unfold State.tickSound; split <;> rfl

end ticks

theorem timerCheck_running {s : State} (h : s.run = .running) (now : Nat) :
    s.timerCheck now = { (s.tickDelay now).tickSound now with now := now } := by
  simp [State.timerCheck, h]

theorem timerCheck_halted {s : State} {f : Fault} (h : s.run = .halted f) (now : Nat) : s.timerCheck now = s := by
  simp [State.timerCheck, h]

/-- The timers and the clock after a check of a running core (R211). -/
theorem timerCheck_fields {s : State} (h : s.run = .running) (now : Nat) :
    (s.timerCheck now).dt = (if timerDue s s.dt s.dtLast now then s.dt - 1 else s.dt) ∧
      (s.timerCheck now).dtLast = (if timerDue s s.dt s.dtLast now then now else s.dtLast) ∧
      (s.timerCheck now).st = (if timerDue s s.st s.stLast now then s.st - 1 else s.st) ∧
      (s.timerCheck now).stLast = (if timerDue s s.st s.stLast now then now else s.stLast) ∧
      (s.timerCheck now).now = now := by
  rw [timerCheck_running h]
  simp

theorem hostFrame_timerCheck (s : State) (now : Nat) : HostFrame s (s.timerCheck now) := by
  unfold State.timerCheck
  split
  · exact ((hostFrame_tickDelay s now).trans (hostFrame_tickSound _ now)).trans rfl
  · rfl

/-- A key event sets one key, or does nothing: the index is rejected or the core is HALTED (R215, R216, R232). -/
theorem setKey_cases (s : State) (k : Nat) (down : Bool) :
    (∃ h : k < 16, s.run = .running ∧ s.setKey k down = .ok { s with key := s.key.set k down h }) ∨
      (k < 16 ∧ (∃ f, s.run = .halted f) ∧ s.setKey k down = .ok s) ∨
      (16 ≤ k ∧ s.setKey k down = .error .keyIndexOutOfRange) := by
  unfold State.setKey
  split
  · next h =>
    split
    · next hr => exact .inl ⟨h, hr, rfl⟩
    · next f hr => exact .inr (.inl ⟨h, ⟨f, hr⟩, rfl⟩)
  · next h => exact .inr (.inr ⟨by omega, rfl⟩)

theorem afterKeyEvent_cases (s : State) (k : Nat) (down : Bool) :
    s.afterKeyEvent (s.setKey k down) = s ∨
      ∃ h : k < 16, s.afterKeyEvent (s.setKey k down) = { s with key := s.key.set k down h } := by
  rcases setKey_cases s k down with ⟨h, -, e⟩ | ⟨-, -, e⟩ | ⟨-, e⟩ <;> rw [e]
  · exact .inr ⟨h, rfl⟩
  · exact .inl rfl
  · exact .inl rfl

theorem hostFrame_keyEvent (s : State) (k : Nat) (down : Bool) :
    HostFrame s (s.afterKeyEvent (s.setKey k down)) := by
  rcases afterKeyEvent_cases s k down with e | ⟨h, e⟩ <;> rw [e] <;> rfl

/-- The waiting inputs reach the keypad, the timers and the cycle's inputs, and nothing else. -/
theorem hostFrame_takeInputs (l : List HostInput) (s : State) : HostFrame s (takeInputs l s) := by
  induction l generalizing s with
  | nil => rfl
  | cons x l ih =>
    cases x with
    | timerCheck now => exact (hostFrame_timerCheck s now).trans (ih _)
    | keyPress k => exact (hostFrame_keyEvent s k true).trans (ih _)
    | keyRelease k => exact (hostFrame_keyEvent s k false).trans (ih _)
    | cycle now rnd => rfl

theorem hostFrame_beginCycle (s : State) : HostFrame s s.beginCycle := hostFrame_takeInputs s.inputs s

@[simp] theorem beginCycle_pc (s : State) : s.beginCycle.pc = s.pc := (hostFrame_beginCycle s).pc
@[simp] theorem beginCycle_run (s : State) : s.beginCycle.run = s.run := (hostFrame_beginCycle s).run
@[simp] theorem beginCycle_readByte (s : State) (a : Nat) : s.beginCycle.readByte a = s.readByte a :=
  (hostFrame_beginCycle s).readByte a

/-- A cycle whose inputs wait at the head takes them. -/
theorem beginCycle_cycle {s : State} {now : Nat} {rnd : Byte} {rest : List HostInput}
    (h : s.inputs = .cycle now rnd :: rest) : s.beginCycle = { s with inputs := rest, now := now, rnd := rnd } := by
  rw [State.beginCycle, h]; rfl

/-- A cycle for which nothing waits takes free inputs (log 2, log 3). -/
theorem beginCycle_nil {s : State} (h : s.inputs = []) : s.beginCycle = s.freeCycleInputs := by
  rw [State.beginCycle, h]; rfl

/-! ### The clock -/

/-- What the clock readings of a state satisfy while the host keeps its duty. -/
structure ClockOk (s : State) : Prop where
  delay : s.dtLast ≤ s.now
  sound : s.stLast ≤ s.now

theorem clockOk_timerCheck {s : State} (h : ClockOk s) {now : Nat} (hn : s.now ≤ now) :
    ClockOk (s.timerCheck now) ∧ s.now ≤ (s.timerCheck now).now ∧ (s.timerCheck now).now ≤ now := by
  have hd := h.delay
  have hs := h.sound
  cases hr : s.run with
  | running =>
    obtain ⟨-, h1, -, h2, h3⟩ := timerCheck_fields hr now
    refine ⟨⟨?_, ?_⟩, ?_, ?_⟩
    · rw [h1, h3]; split <;> omega
    · rw [h2, h3]; split <;> omega
    · omega
    · omega
  | halted f => rw [timerCheck_halted hr]; exact ⟨h, le_refl _, hn⟩

theorem clockOk_keyEvent {s : State} (h : ClockOk s) (k : Nat) (down : Bool) :
    ClockOk (s.afterKeyEvent (s.setKey k down)) ∧ (s.afterKeyEvent (s.setKey k down)).now = s.now := by
  rcases afterKeyEvent_cases s k down with e | ⟨_, e⟩ <;> rw [e]
  · exact ⟨h, rfl⟩
  · exact ⟨⟨h.delay, h.sound⟩, rfl⟩

theorem readingsRise_mono {t t' : Nat} (h : t' ≤ t) {l : List HostInput} (hl : readingsRise t l = true) :
    readingsRise t' l = true := by
  induction l with
  | nil => rfl
  | cons x l ih =>
    cases x with
    | timerCheck now => simp only [readingsRise, Bool.and_eq_true, decide_eq_true_eq] at *; exact ⟨by omega, hl.2⟩
    | keyPress k => exact ih hl
    | keyRelease k => exact ih hl
    | cycle now rnd => simp only [readingsRise, Bool.and_eq_true, decide_eq_true_eq] at *; exact ⟨by omega, hl.2⟩

/-- While the host keeps its duty, taking the waiting inputs moves the clock forward and keeps the duty (R104). -/
theorem takeInputs_clock {l : List HostInput} {s : State} (h : ClockOk s) (hl : readingsRise s.now l = true) :
    ClockOk (takeInputs l s) ∧ s.now ≤ (takeInputs l s).now ∧ (takeInputs l s).hostDuty = true := by
  induction l generalizing s with
  | nil =>
    have := h.delay
    have := h.sound
    refine ⟨⟨?_, ?_⟩, ?_, rfl⟩ <;> simp only [takeInputs, State.freeCycleInputs] <;> omega
  | cons x l ih =>
    cases x with
    | timerCheck now =>
      simp only [readingsRise, Bool.and_eq_true, decide_eq_true_eq] at hl
      obtain ⟨h1, h2, h3⟩ := clockOk_timerCheck h hl.1
      obtain ⟨a, b, c⟩ := ih h1 (readingsRise_mono h3 hl.2)
      exact ⟨a, le_trans h2 b, c⟩
    | keyPress k =>
      obtain ⟨h1, h2⟩ := clockOk_keyEvent h k true
      obtain ⟨a, b, c⟩ := ih h1 (by rw [h2]; exact hl)
      rw [h2] at b
      exact ⟨a, b, c⟩
    | keyRelease k =>
      obtain ⟨h1, h2⟩ := clockOk_keyEvent h k false
      obtain ⟨a, b, c⟩ := ih h1 (by rw [h2]; exact hl)
      rw [h2] at b
      exact ⟨a, b, c⟩
    | cycle now rnd =>
      simp only [readingsRise, Bool.and_eq_true, decide_eq_true_eq] at hl
      have := h.delay
      have := h.sound
      refine ⟨⟨?_, ?_⟩, ?_, hl.2⟩ <;> simp only [takeInputs] <;> omega

/-- Beginning a cycle keeps the invariant. -/
theorem beginCycle_inv {s : State} (h : s.Inv) : s.beginCycle.Inv := by
  have hf := hostFrame_beginCycle s
  obtain ⟨hc, -, hd⟩ := takeInputs_clock ⟨h.delay, h.sound⟩ h.duty
  refine ⟨hf.memOk h.mem, hf.run ▸ h.running, hf.pc ▸ h.pc, ?_, hf.cfg ▸ h.cfg, hc.delay, hc.sound, hd⟩
  intro k
  simpa [hf.stack] using h.stack k

/-! ### Construction -/

/-- A core that was constructed is the fresh state with the image stored, and the image fits (R250, R253). -/
theorem construct_ok {cfg : Config} {image : Option (List Byte)} {t0 : Nat} {s : State}
    (h : construct cfg image t0 = .ok s) :
    ∃ l, image = some l ∧ l.length ≤ 3584 ∧ s = storeBytes 0x200 l (State.fresh cfg t0) := by
  cases image with
  | none => cases h
  | some l =>
    simp only [construct] at h
    split at h
    · cases h
    · cases h; exact ⟨l, rfl, by omega, rfl⟩

theorem fresh_memOk (cfg : Config) (t0 : Nat) : (State.fresh cfg t0).memOk := rfl

end Sys2Proof.Machine
end

