-- ==== Sys2Proof/Laws/PerInstr.lean ====
section
/-! SUPPORT. Statements about every instruction, one lemma per constructor: RoundTrip says that the decoder reads back a
well-formed instruction from the word that the encoder writes, every operand at every value its field admits. -/

namespace Sys2Proof.Laws.RoundTrip

/-- Decoding the word of a well-formed instruction gives the instruction. -/
def Statement (i : Instr) : Prop := i.wf = true → decodeWord (encode i) = some i

/-- A word of the form NNN, by its family. -/
theorem fields_formNNN {f : Nat} (hf : f < 16) {nnn : Word} (h : fitsNNN nnn = true) :
    family (formNNN f nnn) = BitVec.ofNat 4 f ∧ fieldNNN (formNNN f nnn) = nnn :=
  ⟨family_formNNN hf nnn, fieldNNN_formNNN hf h⟩

/-- A word of the form XNN, by its family. -/
theorem fields_formXNN {f : Nat} (hf : f < 16) (x : Reg) (nn : Byte) :
    family (formXNN f x nn) = BitVec.ofNat 4 f ∧ fieldX (formXNN f x nn) = x ∧ fieldNN (formXNN f x nn) = nn :=
  ⟨family_formXNN hf x nn, fieldX_formXNN hf x nn, fieldNN_formXNN hf x nn⟩

/-- A word of the form XYN, by its family. -/
theorem fields_formXYN {f : Nat} (hf : f < 16) (x y : Reg) (n : Nat) :
    family (formXYN f x y n) = BitVec.ofNat 4 f ∧ fieldX (formXYN f x y n) = x ∧ fieldY (formXYN f x y n) = y ∧
      fieldN (formXYN f x y n) = BitVec.ofNat 4 n :=
  ⟨family_formXYN hf x y n, fieldX_formXYN hf x y n, fieldY_formXYN hf x y n, fieldN_formXYN hf x y n⟩

theorem cls : Statement .cls := fun _ => by decide

theorem ret : Statement .ret := fun _ => by decide

theorem jp (nnn : Word) : Statement (.jp nnn) := fun h => by
  obtain ⟨hf, hn⟩ := fields_formNNN (f := 0x1) (by decide) h
  simp [encode, decodeWord, hf, hn]

theorem call (nnn : Word) : Statement (.call nnn) := fun h => by
  obtain ⟨hf, hn⟩ := fields_formNNN (f := 0x2) (by decide) h
  simp [encode, decodeWord, hf, hn]

theorem ldIndex (nnn : Word) : Statement (.ldIndex nnn) := fun h => by
  obtain ⟨hf, hn⟩ := fields_formNNN (f := 0xa) (by decide) h
  simp [encode, decodeWord, hf, hn]

theorem jpOffset (nnn : Word) : Statement (.jpOffset nnn) := fun h => by
  obtain ⟨hf, hn⟩ := fields_formNNN (f := 0xb) (by decide) h
  simp [encode, decodeWord, hf, hn]

theorem seByte (x : Reg) (nn : Byte) : Statement (.seByte x nn) := fun _ => by
  obtain ⟨hf, hx, hn⟩ := fields_formXNN (f := 0x3) (by decide) x nn
  simp [encode, decodeWord, hf, hx, hn]

theorem sneByte (x : Reg) (nn : Byte) : Statement (.sneByte x nn) := fun _ => by
  obtain ⟨hf, hx, hn⟩ := fields_formXNN (f := 0x4) (by decide) x nn
  simp [encode, decodeWord, hf, hx, hn]

theorem ldByte (x : Reg) (nn : Byte) : Statement (.ldByte x nn) := fun _ => by
  obtain ⟨hf, hx, hn⟩ := fields_formXNN (f := 0x6) (by decide) x nn
  simp [encode, decodeWord, hf, hx, hn]

theorem addByte (x : Reg) (nn : Byte) : Statement (.addByte x nn) := fun _ => by
  obtain ⟨hf, hx, hn⟩ := fields_formXNN (f := 0x7) (by decide) x nn
  simp [encode, decodeWord, hf, hx, hn]

theorem rnd (x : Reg) (nn : Byte) : Statement (.rnd x nn) := fun _ => by
  obtain ⟨hf, hx, hn⟩ := fields_formXNN (f := 0xc) (by decide) x nn
  simp [encode, decodeWord, hf, hx, hn]

theorem seReg (x y : Reg) : Statement (.seReg x y) := fun _ => by
  obtain ⟨hf, hx, hy, hn⟩ := fields_formXYN (f := 0x5) (by decide) x y 0x0
  simp [encode, decodeWord, hf, hx, hy, hn]

theorem ldReg (x y : Reg) : Statement (.ldReg x y) := fun _ => by
  obtain ⟨hf, hx, hy, hn⟩ := fields_formXYN (f := 0x8) (by decide) x y 0x0
  simp [encode, decodeWord, decodeFamily8, hf, hx, hy, hn]

theorem orReg (x y : Reg) : Statement (.orReg x y) := fun _ => by
  obtain ⟨hf, hx, hy, hn⟩ := fields_formXYN (f := 0x8) (by decide) x y 0x1
  simp [encode, decodeWord, decodeFamily8, hf, hx, hy, hn]

theorem andReg (x y : Reg) : Statement (.andReg x y) := fun _ => by
  obtain ⟨hf, hx, hy, hn⟩ := fields_formXYN (f := 0x8) (by decide) x y 0x2
  simp [encode, decodeWord, decodeFamily8, hf, hx, hy, hn]

theorem xorReg (x y : Reg) : Statement (.xorReg x y) := fun _ => by
  obtain ⟨hf, hx, hy, hn⟩ := fields_formXYN (f := 0x8) (by decide) x y 0x3
  simp [encode, decodeWord, decodeFamily8, hf, hx, hy, hn]

theorem addReg (x y : Reg) : Statement (.addReg x y) := fun _ => by
  obtain ⟨hf, hx, hy, hn⟩ := fields_formXYN (f := 0x8) (by decide) x y 0x4
  simp [encode, decodeWord, decodeFamily8, hf, hx, hy, hn]

theorem sub (x y : Reg) : Statement (.sub x y) := fun _ => by
  obtain ⟨hf, hx, hy, hn⟩ := fields_formXYN (f := 0x8) (by decide) x y 0x5
  simp [encode, decodeWord, decodeFamily8, hf, hx, hy, hn]

theorem shr (x y : Reg) : Statement (.shr x y) := fun _ => by
  obtain ⟨hf, hx, hy, hn⟩ := fields_formXYN (f := 0x8) (by decide) x y 0x6
  simp [encode, decodeWord, decodeFamily8, hf, hx, hy, hn]

theorem subn (x y : Reg) : Statement (.subn x y) := fun _ => by
  obtain ⟨hf, hx, hy, hn⟩ := fields_formXYN (f := 0x8) (by decide) x y 0x7
  simp [encode, decodeWord, decodeFamily8, hf, hx, hy, hn]

theorem shl (x y : Reg) : Statement (.shl x y) := fun _ => by
  obtain ⟨hf, hx, hy, hn⟩ := fields_formXYN (f := 0x8) (by decide) x y 0xe
  simp [encode, decodeWord, decodeFamily8, hf, hx, hy, hn]

theorem sneReg (x y : Reg) : Statement (.sneReg x y) := fun _ => by
  obtain ⟨hf, hx, hy, hn⟩ := fields_formXYN (f := 0x9) (by decide) x y 0x0
  simp [encode, decodeWord, hf, hx, hy, hn]

theorem drw (x y : Reg) (n : Nat) : Statement (.drw x y n) := fun h => by
  obtain ⟨hf, hx, hy, hn⟩ := fields_formXYN (f := 0xd) (by decide) x y n
  have hlt : n < 16 := by simpa [Instr.wf, fitsN] using h
  simp [encode, decodeWord, hf, hx, hy, hn, Nat.mod_eq_of_lt hlt]

theorem skp (x : Reg) : Statement (.skp x) := fun _ => by
  obtain ⟨hf, hx, hn⟩ := fields_formXNN (f := 0xe) (by decide) x 0x9e#8
  simp [encode, decodeWord, decodeFamilyE, hf, hx, hn]

theorem sknp (x : Reg) : Statement (.sknp x) := fun _ => by
  obtain ⟨hf, hx, hn⟩ := fields_formXNN (f := 0xe) (by decide) x 0xa1#8
  simp [encode, decodeWord, decodeFamilyE, hf, hx, hn]

theorem ldFromDelay (x : Reg) : Statement (.ldFromDelay x) := fun _ => by
  obtain ⟨hf, hx, hn⟩ := fields_formXNN (f := 0xf) (by decide) x 0x7#8
  simp [encode, decodeWord, decodeFamilyF, hf, hx, hn]

theorem ldKey (x : Reg) : Statement (.ldKey x) := fun _ => by
  obtain ⟨hf, hx, hn⟩ := fields_formXNN (f := 0xf) (by decide) x 0xa#8
  simp [encode, decodeWord, decodeFamilyF, hf, hx, hn]

theorem ldDelay (x : Reg) : Statement (.ldDelay x) := fun _ => by
  obtain ⟨hf, hx, hn⟩ := fields_formXNN (f := 0xf) (by decide) x 0x15#8
  simp [encode, decodeWord, decodeFamilyF, hf, hx, hn]

theorem ldSound (x : Reg) : Statement (.ldSound x) := fun _ => by
  obtain ⟨hf, hx, hn⟩ := fields_formXNN (f := 0xf) (by decide) x 0x18#8
  simp [encode, decodeWord, decodeFamilyF, hf, hx, hn]

theorem addIndex (x : Reg) : Statement (.addIndex x) := fun _ => by
  obtain ⟨hf, hx, hn⟩ := fields_formXNN (f := 0xf) (by decide) x 0x1e#8
  simp [encode, decodeWord, decodeFamilyF, hf, hx, hn]

theorem ldFont (x : Reg) : Statement (.ldFont x) := fun _ => by
  obtain ⟨hf, hx, hn⟩ := fields_formXNN (f := 0xf) (by decide) x 0x29#8
  simp [encode, decodeWord, decodeFamilyF, hf, hx, hn]

theorem ldBcd (x : Reg) : Statement (.ldBcd x) := fun _ => by
  obtain ⟨hf, hx, hn⟩ := fields_formXNN (f := 0xf) (by decide) x 0x33#8
  simp [encode, decodeWord, decodeFamilyF, hf, hx, hn]

theorem storeRegs (x : Reg) : Statement (.storeRegs x) := fun _ => by
  obtain ⟨hf, hx, hn⟩ := fields_formXNN (f := 0xf) (by decide) x 0x55#8
  simp [encode, decodeWord, decodeFamilyF, hf, hx, hn]

theorem loadRegs (x : Reg) : Statement (.loadRegs x) := fun _ => by
  obtain ⟨hf, hx, hn⟩ := fields_formXNN (f := 0xf) (by decide) x 0x65#8
  simp [encode, decodeWord, decodeFamilyF, hf, hx, hn]

end Sys2Proof.Laws.RoundTrip
end

