-- ==== Sys2Proof/Laws/Step.lean ====
section
/-! SUPPORT. What one cycle and one step can do (40_cycle_fsm.md R109). -/

namespace Sys2Proof.Machine

theorem fetch_of_le {s : State} (h : s.pc.toNat ≤ 0xFFE) : fetch s = .next (s.fetchedWord, s.afterFetch) := by
  simp [fetch, Nat.not_lt.2 h]

theorem fetch_of_gt {s : State} (h : 0xFFE < s.pc.toNat) : fetch s = .fault (.fetchOutOfRange s.pc) := by
  simp [fetch, h]

@[simp] theorem afterFetch_pc (s : State) : s.afterFetch.pc = s.pc + 2 := rfl

@[simp] theorem afterFetch_ia (s : State) : s.afterFetch.ia = s.pc := by
  simp [State.ia, State.afterFetch]

/-- A cycle does one of three things (R109). -/
theorem runCycle_cases (s : State) :
    (0xFFE < s.pc.toNat ∧ runCycle s = .fault (.fetchOutOfRange s.pc)) ∨
      (s.pc.toNat ≤ 0xFFE ∧ decodeWord s.fetchedWord = none ∧
        runCycle s = .fault (.unimplementedOpcode s.fetchedWord s.pc)) ∨
      (s.pc.toNat ≤ 0xFFE ∧ ∃ i, decodeWord s.fetchedWord = some i ∧ runCycle s = exec i s.afterFetch) := by
  rcases Nat.lt_or_ge 0xFFE s.pc.toNat with h | h
  · exact .inl ⟨h, by simp [runCycle, fetch_of_gt h, raise]⟩
  · refine .inr ?_
    cases hd : decodeWord s.fetchedWord with
    | none => exact .inl ⟨h, rfl, by simp [runCycle, fetch_of_le h, dispatchWord, hd, raise]⟩
    | some i => exact .inr ⟨h, i, rfl, by simp [runCycle, fetch_of_le h, dispatchWord, hd]⟩

/-- If a cycle answers a next state, it has executed the instruction at the pc. -/
theorem runCycle_next {s t : State} (h : runCycle s = .next t) :
    s.pc.toNat ≤ 0xFFE ∧ ∃ i, decodeWord s.fetchedWord = some i ∧ exec i s.afterFetch = .next t := by
  rcases runCycle_cases s with ⟨-, e⟩ | ⟨-, -, e⟩ | ⟨hp, i, hd, e⟩
  · rw [e] at h; cases h
  · rw [e] at h; cases h
  · exact ⟨hp, i, hd, e ▸ h⟩

theorem step_running {s : State} (h : s.run = .running) : step s = runCycle s.beginCycle := by
  simp [step, stepCore, h]

theorem step_halted {s : State} {f : Fault} (h : s.run = .halted f) : step s = .fault f := by
  simp [step, stepCore, h, raise]

/-- If a step answers a next state, the core was running. -/
theorem step_next {s t : State} (h : step s = .next t) : s.run = .running ∧ runCycle s.beginCycle = .next t := by
  cases hr : s.run with
  | running => exact ⟨rfl, step_running hr ▸ h⟩
  | halted f => rw [step_halted hr] at h; cases h

/-- A cycle whose word is an instruction executes it. -/
theorem runCycle_some {s : State} {i : Instr} (hp : s.pc.toNat ≤ 0xFFE) (hd : decodeWord s.fetchedWord = some i) :
    runCycle s = exec i s.afterFetch := by
  rcases runCycle_cases s with ⟨h, -⟩ | ⟨-, h, -⟩ | ⟨-, j, h, e⟩
  · omega
  · rw [hd] at h; cases h
  · rw [hd] at h; cases h; exact e

/-- The host's cycle on a running core. -/
theorem cycle_running {s : State} (hr : s.run = .running) (now : Nat) (rnd : Byte) :
    s.cycle now rnd =
      match runCycle { s with now := now, rnd := rnd } with
      | .next t => (t, .ok)
      | .fault f => (State.haltedBy { s with now := now, rnd := rnd } f, .fault f)
      | .refused r => ({ s with now := now, rnd := rnd }, .refused r) := by
  unfold State.cycle
  split
  · next f h => rw [hr] at h; cases h
  · rfl

/-- Every fault but that of a fetch leaves the pc past the instruction (R233). -/
theorem haltedBy_eq {s : State} {f : Fault} (h : ∀ a, f ≠ .fetchOutOfRange a) :
    s.haltedBy f = s.afterFetch.halt f := by
  cases f <;> first | rfl | exact absurd rfl (h _)

end Sys2Proof.Machine
end

