-- ==== Sys2Proof/Tests/Slice0.lean ====
section
/-! SUPPORT. The model's own tests: well-formedness, decoding of words written out from the spec's encodings, one step of
each instruction on the spec's test vectors (95_test_vectors.md; the vector is named in each docstring), and for each
statement with hypotheses a witness that meets them. -/

namespace Sys2Proof.Tests

open Sys2Proof.Machine

/-! ### Helpers -/

/-- The default quirks, timer rate and font with a concrete period and cycle rate: P = 100. -/
def cfg0 : Config := ⟨.modern, .original, .no, ⟨60, 1⟩, 100, ⟨500, 1⟩, Config.defaultFont⟩

/-- The core of the vectors: constructed at clock reading 0, no program. -/
def s0 : State := State.fresh cfg0 0

/-- `s0` under the other value of each quirk. -/
def s1 : State := State.fresh ⟨.legacy, .superchip, .yes, ⟨60, 1⟩, 100, ⟨500, 1⟩, Config.defaultFont⟩ 0

/-- A state with some registers set. -/
def setRegs (s : State) : List (Reg × Byte) → State
  | [] => s
  | (r, b) :: rest => setRegs (s.setReg r b) rest

/-- One step on the word `w` answers a next state of which `p` holds. -/
def after (s : State) (w : Nat) (p : State → Bool) : Bool :=
  match step (s.withFetchWord 16 w) with
  | .next t => p t
  | _ => false

/-- One step on the word `w` answers the fault `f`. -/
def faultsWith (s : State) (w : Nat) (f : Fault) : Bool :=
  match step (s.withFetchWord 16 w) with
  | .fault g => decide (g = f)
  | _ => false

/-- The bytes of memory from `a`. -/
def bytesAt (t : State) (a n : Nat) : List Byte := (List.range n).map fun k => t.readByte (a + k)

/-- The lit cells of row `y`, as their columns. -/
def litRow (t : State) (y : Fin 32) : List Nat := ((List.finRange 64).filter fun x => t.cell x y).map Fin.val

/-! ### Well-formedness: an operand that does not fit its field is refused -/

theorem test_wf_jp : (Instr.jp 0x1000).wf = false ∧ (Instr.jp 0x0FFF).wf = true := by decide

theorem test_wf_call : (Instr.call 0x1000).wf = false ∧ (Instr.call 0x0FFF).wf = true := by decide

theorem test_wf_ldIndex : (Instr.ldIndex 0x1000).wf = false ∧ (Instr.ldIndex 0x0FFF).wf = true := by decide

theorem test_wf_jpOffset : (Instr.jpOffset 0x1000).wf = false ∧ (Instr.jpOffset 0x0FFF).wf = true := by decide

theorem test_wf_drw : (Instr.drw 0 1 16).wf = false ∧ (Instr.drw 0 1 15).wf = true := by decide

/-! ### Decoding: words written out bit by bit from the formats and the table of 30_encoding.md R71 and R76 -/

theorem test_decode_cls : decodeTableWord 16 0b0000_0000_1110_0000 = some .cls := by decide

theorem test_decode_ret : decodeTableWord 16 0b0000_0000_1110_1110 = some .ret := by decide

theorem test_decode_jp : decodeTableWord 16 0b0001_0010_0010_1000 = some (.jp 0x228) := by decide

theorem test_decode_call : decodeTableWord 16 0b0010_0011_0000_0000 = some (.call 0x300) := by decide

theorem test_decode_seByte : decodeTableWord 16 0b0011_0011_0100_0010 = some (.seByte 3 0x42) := by decide

theorem test_decode_sneByte : decodeTableWord 16 0b0100_0011_0000_0000 = some (.sneByte 3 0x00) := by decide

theorem test_decode_seReg : decodeTableWord 16 0b0101_0001_0010_0000 = some (.seReg 1 2) := by decide

theorem test_decode_ldByte : decodeTableWord 16 0b0110_1010_0000_0101 = some (.ldByte 10 0x05) := by decide

theorem test_decode_addByte : decodeTableWord 16 0b0111_1010_0000_0010 = some (.addByte 10 0x02) := by decide

theorem test_decode_ldReg : decodeTableWord 16 0b1000_0001_0010_0000 = some (.ldReg 1 2) := by decide

theorem test_decode_orReg : decodeTableWord 16 0b1000_0001_0010_0001 = some (.orReg 1 2) := by decide

theorem test_decode_andReg : decodeTableWord 16 0b1000_0001_0010_0010 = some (.andReg 1 2) := by decide

theorem test_decode_xorReg : decodeTableWord 16 0b1000_0001_0010_0011 = some (.xorReg 1 2) := by decide

theorem test_decode_addReg : decodeTableWord 16 0b1000_0001_0010_0100 = some (.addReg 1 2) := by decide

theorem test_decode_sub : decodeTableWord 16 0b1000_0001_0010_0101 = some (.sub 1 2) := by decide

theorem test_decode_shr : decodeTableWord 16 0b1000_0001_0010_0110 = some (.shr 1 2) := by decide

theorem test_decode_subn : decodeTableWord 16 0b1000_0001_0010_0111 = some (.subn 1 2) := by decide

theorem test_decode_shl : decodeTableWord 16 0b1000_0001_0010_1110 = some (.shl 1 2) := by decide

theorem test_decode_sneReg : decodeTableWord 16 0b1001_0001_0010_0000 = some (.sneReg 1 2) := by decide

theorem test_decode_ldIndex : decodeTableWord 16 0b1010_0001_0010_0011 = some (.ldIndex 0x123) := by decide

theorem test_decode_jpOffset : decodeTableWord 16 0b1011_0011_0010_0000 = some (.jpOffset 0x320) := by decide

theorem test_decode_rnd : decodeTableWord 16 0b1100_0011_0000_1111 = some (.rnd 3 0x0F) := by decide

theorem test_decode_drw : decodeTableWord 16 0b1101_0000_0001_0101 = some (.drw 0 1 5) := by decide

theorem test_decode_skp : decodeTableWord 16 0b1110_0101_1001_1110 = some (.skp 5) := by decide

theorem test_decode_sknp : decodeTableWord 16 0b1110_0101_1010_0001 = some (.sknp 5) := by decide

theorem test_decode_ldFromDelay : decodeTableWord 16 0b1111_0001_0000_0111 = some (.ldFromDelay 1) := by decide

theorem test_decode_ldKey : decodeTableWord 16 0b1111_0011_0000_1010 = some (.ldKey 3) := by decide

theorem test_decode_ldDelay : decodeTableWord 16 0b1111_0010_0001_0101 = some (.ldDelay 2) := by decide

theorem test_decode_ldSound : decodeTableWord 16 0b1111_0010_0001_1000 = some (.ldSound 2) := by decide

theorem test_decode_addIndex : decodeTableWord 16 0b1111_0001_0001_1110 = some (.addIndex 1) := by decide

theorem test_decode_ldFont : decodeTableWord 16 0b1111_0100_0010_1001 = some (.ldFont 4) := by decide

theorem test_decode_ldBcd : decodeTableWord 16 0b1111_0000_0011_0011 = some (.ldBcd 0) := by decide

theorem test_decode_storeRegs : decodeTableWord 16 0b1111_0010_0101_0101 = some (.storeRegs 2) := by decide

theorem test_decode_loadRegs : decodeTableWord 16 0b1111_1111_0110_0101 = some (.loadRegs 15) := by decide

/-- R79 to R83, V-05 to V-07, V-C15, V-C18, V-A27, V-A28, V-K5. -/
theorem test_decode_illegal :
    ([0x0000, 0x00E1, 0x01E0, 0x0123, 0x5121, 0x912F, 0x8128, 0x812F, 0xE59F, 0xF000, 0xFFFF].all
      fun w => decodeTableWord 16 w == none) = true := by decide

theorem test_decode_truncated : decode [0x00] = .error .truncated ∧ decode [] = .error .truncated := ⟨rfl, rfl⟩

theorem test_decode_rest : decode [0x6A, 0x05, 0xFF] = .ok (.ldByte 10 0x05, [0xFF]) := rfl

/-! ### One step of each instruction -/

/-- V-01. -/
theorem test_cls :
    after (((s0.setCell 5 5 true).setCell 63 31 true).setReg VF 0x77) 0x00E0 (fun t => litRow t 5 == [] &&
      litRow t 31 == [] && t.reg VF == 0x77) = true := by decide

/-- V-03. -/
theorem test_ret :
    after { s0 with sp := 2, stack := (s0.stack.set 0 0x204).set 1 0x20A } 0x00EE (fun t => t.sp == 1 &&
      t.pc == 0x20A && t.stack[1] == 0x20A) = true := by decide

/-- V-02. -/
theorem test_ret_underflow : faultsWith s0 0x00EE (.stackUnderflow 0x00EE 0x200) = true := by decide

/-- R122, its example. -/
theorem test_jp : after s0 0x1228 (fun t => t.pc == 0x228) = true := by decide

/-- V-C3. -/
theorem test_call :
    after { s0 with sp := 15 } 0x2400 (fun t => t.stack[15] == 0x202 && t.sp == 16 &&
      t.pc == 0x400) = true := by decide

/-- V-C4. -/
theorem test_call_overflow : faultsWith { s0 with sp := 16 } 0x2400 (.stackOverflow 0x2400 0x200) = true := by decide

/-- V-C6. -/
theorem test_seByte : after (setRegs s0 [(3, 0x42)]) 0x3342 (fun t => t.pc == 0x204) = true := by decide

/-- V-C7. -/
theorem test_seByte_not : after (setRegs s0 [(3, 0x42)]) 0x3343 (fun t => t.pc == 0x202) = true := by decide

/-- V-C11. -/
theorem test_sneByte : after (setRegs s0 [(3, 0x42)]) 0x4300 (fun t => t.pc == 0x204) = true := by decide

/-- V-C10. -/
theorem test_sneByte_not : after (setRegs s0 [(3, 0x42)]) 0x4342 (fun t => t.pc == 0x202) = true := by decide

/-- V-C13. -/
theorem test_seReg : after (setRegs s0 [(1, 7), (2, 7)]) 0x5120 (fun t => t.pc == 0x204) = true := by decide

/-- V-C14. -/
theorem test_seReg_not : after (setRegs s0 [(1, 7), (2, 8)]) 0x5120 (fun t => t.pc == 0x202) = true := by decide

/-- V-A1. -/
theorem test_ldByte : after s0 0x6F12 (fun t => t.reg VF == 0x12 && t.pc == 0x202) = true := by decide

/-- V-A2. -/
theorem test_addByte :
    after (setRegs s0 [(1, 0xFE), (VF, 0xAA)]) 0x7103 (fun t => t.reg 1 == 0x01 &&
      t.reg VF == 0xAA) = true := by decide

/-- V-A3. -/
theorem test_addByte_flag : after (setRegs s0 [(VF, 0xFF)]) 0x7F01 (fun t => t.reg VF == 0x00) = true := by decide

/-- V-A5. -/
theorem test_ldReg : after (setRegs s1 [(1, 0x33)]) 0x8210 (fun t => t.reg 2 == 0x33) = true := by decide

/-- V-A6. -/
theorem test_orReg :
    after (setRegs s0 [(1, 0x0F), (2, 0xF0), (VF, 0x55)]) 0x8121 (fun t => t.reg 1 == 0xFF &&
      t.reg VF == 0x55) = true := by decide

/-- V-A7. -/
theorem test_andReg :
    after (setRegs s0 [(1, 0x3C), (2, 0x0F), (VF, 0x55)]) 0x8122 (fun t => t.reg 1 == 0x0C &&
      t.reg VF == 0x55) = true := by decide

/-- V-A8. -/
theorem test_xorReg : after (setRegs s0 [(1, 0x3C)]) 0x8113 (fun t => t.reg 1 == 0x00) = true := by decide

/-- L1-3. -/
theorem test_addReg :
    after (setRegs s0 [(1, 0xF0), (2, 0x20)]) 0x8124 (fun t => t.reg 1 == 0x10 && t.reg VF == 1) = true := by decide

/-- V-A12. -/
theorem test_addReg_flag :
    after (setRegs s0 [(VF, 0x10), (1, 0xF0)]) 0x8F14 (fun t => t.reg VF == 1) = true := by decide

/-- L1-4. -/
theorem test_sub :
    after (setRegs s0 [(1, 0x10), (2, 0x20)]) 0x8125 (fun t => t.reg 1 == 0xF0 && t.reg VF == 0) = true := by decide

/-- V-A15. -/
theorem test_sub_equal :
    after (setRegs s0 [(1, 0x05), (2, 0x05)]) 0x8125 (fun t => t.reg 1 == 0x00 && t.reg VF == 1) = true := by decide

/-- L1-5. -/
theorem test_shr :
    after (setRegs s0 [(1, 0x05)]) 0x8126 (fun t => t.reg 1 == 0x02 && t.reg VF == 1) = true := by decide

/-- V-A20. -/
theorem test_shr_legacy :
    after (setRegs s1 [(1, 0x00), (2, 0x03)]) 0x8126 (fun t => t.reg 1 == 0x01 && t.reg VF == 1) = true := by decide

/-- V-A22. -/
theorem test_subn :
    after (setRegs s0 [(1, 0x20), (2, 0x10)]) 0x8127 (fun t => t.reg 1 == 0xF0 && t.reg VF == 0) = true := by decide

/-- V-A25. -/
theorem test_shl :
    after (setRegs s0 [(1, 0x7F)]) 0x810E (fun t => t.reg 1 == 0xFE && t.reg VF == 0) = true := by decide

/-- V-A26. -/
theorem test_shl_legacy :
    after (setRegs s1 [(1, 0x00), (2, 0x81)]) 0x812E (fun t => t.reg 1 == 0x02 && t.reg VF == 1) = true := by decide

/-- V-C16. -/
theorem test_sneReg : after (setRegs s0 [(1, 7), (2, 8)]) 0x9120 (fun t => t.pc == 0x204) = true := by decide

/-- V-C17. -/
theorem test_sneReg_not : after (setRegs s0 [(1, 7), (2, 7)]) 0x9120 (fun t => t.pc == 0x202) = true := by decide

/-- V-M2. -/
theorem test_ldIndex : after s0 0xAFFF (fun t => t.i == 0xFFF) = true := by decide

/-- V-C20. -/
theorem test_jpOffset : after (setRegs s0 [(0, 0xFF)]) 0xBFFF (fun t => t.pc == 0x10FE) = true := by decide

/-- V-C21. -/
theorem test_jpOffset_superchip : after (setRegs s1 [(3, 0x05)]) 0xB320 (fun t => t.pc == 0x325) = true := by decide

/-- V-A29. -/
theorem test_rnd : after { s0 with inputs := [.cycle 0 0xFF] } 0xC1F0 (fun t => t.reg 1 == 0xF0) = true := by decide

/-- L1-6, glyph 0; V-D8, clipped. -/
theorem test_drw :
    after (s0.setIndex 0x050) 0xD015 (fun t => litRow t 0 == [0, 1, 2, 3] && litRow t 1 == [0, 3] &&
      litRow t 4 == [0, 1, 2, 3] && litRow t 5 == [] && t.reg VF == 0) = true ∧
      after (((setRegs s0 [(0, 0x3E), (1, 0x1F)]).setIndex 0x300).writeByte 0x300 0xFF
      |>.writeByte 0x301 0xFF) 0xD012 (fun t => litRow t 31 == [62, 63] && litRow t 0 == [] &&
      t.reg VF == 0) = true := by decide

/-- V-D1, its second draw; V-D5. -/
theorem test_drw_collision :
    after (((setRegs s0 [(0, 1)]).setIndex 0x300).writeByte 0x300 0xC0 |>.setCell 0 0 true
      |>.setCell 1 0 true) 0xD011 (fun t => litRow t 0 == [0, 2] && t.reg VF == 1) = true ∧
      faultsWith (s0.setIndex 0xFFE) 0xD015 (.addressOutOfRange 0xD015 0x200 0x1000) = true := by decide

/-- V-K1. -/
theorem test_skp :
    after { (setRegs s0 [(5, 0x13)]) with key := s0.key.set 3 true } 0xE59E (fun t => t.pc == 0x204) = true :=
      by decide

/-- V-K2. -/
theorem test_skp_not : after (setRegs s0 [(5, 0x03)]) 0xE59E (fun t => t.pc == 0x202) = true := by decide

/-- V-K3. -/
theorem test_sknp : after (setRegs s0 [(5, 0x03)]) 0xE5A1 (fun t => t.pc == 0x204) = true := by decide

/-- V-K4. -/
theorem test_sknp_not :
    after { (setRegs s0 [(5, 0x13)]) with key := s0.key.set 3 true } 0xE5A1 (fun t => t.pc == 0x202) = true :=
      by decide

/-- V-K9. -/
theorem test_ldFromDelay : after { s0 with dt := 0x3C } 0xF107 (fun t => t.reg 1 == 0x3C) = true := by decide

/-- V-K6. -/
theorem test_ldKey_waits :
    after (setRegs s0 [(3, 0x77)]) 0xF30A (fun t => t.pc == 0x200 && t.reg 3 == 0x77) = true := by decide

/-- L1-11. -/
theorem test_ldKey :
    after { s0 with inputs := [.keyPress 9, .keyPress 4, .cycle 0 0] } 0xF30A (fun t => t.reg 3 == 4 &&
      t.pc == 0x202) = true := by decide

/-- V-K10. -/
theorem test_ldDelay :
    after { (setRegs s0 [(2, 0x05)]) with inputs := [.cycle 1000 0] } 0xF215 (fun t => t.dt == 5 &&
      t.dtLast == 1000) = true := by decide

/-- V-K12. -/
theorem test_ldSound :
    after { (setRegs s0 [(2, 0x10)]) with inputs := [.cycle 1000 0] } 0xF218 (fun t => t.st == 0x10 &&
      t.stLast == 1000) = true := by decide

/-- V-M3. -/
theorem test_addIndex :
    after ((setRegs s0 [(1, 0x01), (VF, 0x33)]).setIndex 0x0FFF) 0xF11E (fun t => t.i == 0x1000 &&
      t.reg VF == 0x33) = true := by decide

/-- V-M4. -/
theorem test_addIndex_wraps :
    after ((setRegs s0 [(1, 0x01)]).setIndex 0xFFFF) 0xF11E (fun t => t.i == 0x0000) = true := by decide

/-- V-M6. -/
theorem test_ldFont : after (setRegs s0 [(4, 0x3A)]) 0xF429 (fun t => t.i == 0x082) = true := by decide

/-- L1-9. -/
theorem test_ldBcd :
    after ((setRegs s0 [(0, 0xCD)]).setIndex 0x300) 0xF033 (fun t => bytesAt t 0x300 3 == [2, 0, 5] &&
      t.i == 0x300) = true := by decide

/-- V-M13. -/
theorem test_ldBcd_fault :
    faultsWith (s0.setIndex 0xFFE) 0xF033 (.addressOutOfRange 0xF033 0x200 0x1000) = true := by decide

/-- V-M18. -/
theorem test_storeRegs :
    after ((setRegs s1 [(0, 1), (1, 2), (2, 3)]).setIndex 0x300) 0xF255
      (fun t => bytesAt t 0x300 4 == [1, 2, 3, 0] && t.i == 0x303) = true := by decide

/-- V-M16. -/
theorem test_storeRegs_fault :
    faultsWith (s0.setIndex 0xFF1) 0xFF55 (.addressOutOfRange 0xFF55 0x200 0x1000) = true := by decide

/-- V-M19. -/
theorem test_loadRegs :
    after (((setRegs s0 [(3, 0x44)]).setIndex 0x300).writeByte 0x300 9 |>.writeByte 0x301 8
      |>.writeByte 0x302 7) 0xF265 (fun t => t.reg 0 == 9 && t.reg 1 == 8 && t.reg 2 == 7 && t.reg 3 == 0x44 &&
      t.i == 0x300) = true := by decide

/-- V-M20. -/
theorem test_loadRegs_all :
    after ((s0.setIndex 0x300).writeByte 0x30F 0x5A) 0xFF65 (fun t => t.reg VF == 0x5A) = true := by decide

/-! ### Fetch, faults and the host -/

/-- V-F1. -/
theorem test_fetch_top :
    after { s0 with pc := 0xFFE } 0x6011 (fun t => t.reg 0 == 0x11 && t.pc == 0x1000) = true := by decide

/-- V-F3. -/
theorem test_fetch_odd :
    after { s0 with pc := 0x201 } 0x6A07 (fun t => t.reg 10 == 0x07 && t.pc == 0x203) = true := by decide

/-- V-F2. -/
theorem test_fetch_out_of_range :
    faultsWith { s0 with pc := 0xFFF } 0x6011 (.fetchOutOfRange 0x0FFF) = true := by decide

/-- V-F5. -/
theorem test_reset_step : faultsWith State.reset 0x0000 (.unimplementedOpcode 0x0000 0x200) = true := by decide

/-- V-F5 and V-R4: the state a fault leaves. -/
theorem test_cycle_fault :
    (s0.cycle 3 9).1.pc = 0x202 ∧ (s0.cycle 3 9).1.readStatus = .halted (.unimplementedOpcode 0x0000 0x200) :=
      by decide

/-- V-K13 and V-K14. -/
theorem test_timer_strict :
    ({ s0 with dt := 5, dtLast := 1000 }.timerCheck 1100).dt = 5 ∧
      ({ s0 with dt := 5, dtLast := 1000 }.timerCheck 1101).dt = 4 ∧
      ({ s0 with dt := 5, dtLast := 1000 }.timerCheck 1101).dtLast = 1101 := by decide

/-- V-K16. -/
theorem test_timers_independent :
    ({ s0 with dt := 1, st := 1, stLast := 50 }.timerCheck 120).dt = 0 ∧
      ({ s0 with dt := 1, st := 1, stLast := 50 }.timerCheck 120).st = 1 := by decide

/-- V-K18 and V-K20. -/
theorem test_key_index :
    s0.keyPress 16 = .error .keyIndexOutOfRange ∧ s0.keyRelease 200 = .error .keyIndexOutOfRange := ⟨rfl, rfl⟩

/-- V-R1. -/
theorem test_construct :
    (match construct cfg0 (some [0x12, 0x00]) 7 with
    | .ok s => bytesAt s 0x200 3 == [0x12, 0x00, 0x00] &&
      bytesAt s 0x050 5 == [0xF0, 0x90, 0x90, 0x90, 0xF0] && s.dtLast == 7 && s.stLast == 7 && s.pc == 0x200
    | .error _ => false) = true := by decide

/-- V-M23, and the canonical form: the reset byte unlists the cell. -/
theorem test_font_is_writable :
    Memory.wf cfg0.font (s0.writeByte 0x050 0xFF).mem = true ∧
      (s0.writeByte 0x050 0xFF).readByte 0x050 = 0xFF ∧
      ((s0.writeByte 0x050 0xFF).writeByte 0x050 0xF0).mem = [] := by decide

theorem test_with_fetch_word : (s0.withFetchWord 16 0x6A05).mem = [(0x200, 0x6A), (0x201, 0x05)] := by decide

/-! ### Witnesses: for each statement with hypotheses, a state and operands that meet them, clause by clause -/

/-- The result of an instruction is a next state. -/
def runs (i : Instr) (s : State) : Bool :=
  match exec i s with
  | .next _ => true
  | _ => false

theorem exists_of_runs {i : Instr} {s : State} (h : runs i s = true) : ∃ t, exec i s = .next t := by
  unfold runs at h
  split at h
  · exact ⟨_, by assumption⟩
  · cases h

/-- A step is a next state. -/
def steps (s : State) : Bool :=
  match step s with
  | .next _ => true
  | _ => false

theorem exists_of_steps {s : State} (h : steps s = true) : ∃ t, step s = .next t := by
  unfold steps at h
  split at h
  · exact ⟨_, by assumption⟩
  · cases h

theorem witness_DecodeAgreesWithOpcodeTable :
    decodeWord 0x6A05 = some (.ldByte 10 0x05) ∧ (⟨0xF065, 0xF0FF⟩ : OpcodeRow) ∈ opcodeTable ∧
      OpcodeRow.matchesWord ⟨0xF065, 0xF0FF⟩ 0xFF65 = true := by decide

theorem witness_DecodeOfEncode : (Instr.drw 15 15 15).wf = true ∧ (Instr.jp 0xFFF).wf = true := by decide

theorem witness_EncodeOfDecode : decode [0xFF, 0x65, 0xAA] = .ok (.loadRegs 15, [0xAA]) := rfl

/-- One illegal word of each clause: families 0, 5, 9, 8, E and F. -/
theorem witness_IllegalWordsByFamily :
    (family 0x00E1 = 0x0#4 ∧ (0x00E1 : Word) ≠ 0x00E0#16 ∧ (0x00E1 : Word) ≠ 0x00EE#16) ∧
      (family 0x5001 = 0x5#4 ∧ fieldN 0x5001 ≠ 0x0#4) ∧ (family 0x900F = 0x9#4 ∧ fieldN 0x900F ≠ 0x0#4) ∧
      (family 0x800F = 0x8#4 ∧ fieldN 0x800F = 0xF#4) ∧ (family 0xE000 = 0xE#4 ∧ fieldNN 0xE000 = 0x00#8) ∧
      (family 0xF0FF = 0xF#4 ∧ fieldNN 0xF0FF = 0xFF#8) := by decide

/-- At the top of memory. -/
theorem witness_StepRunsDecodedInstruction :
    ({ s0 with pc := 0xFFE }.withFetchWord 16 0x6011).run = .running ∧
      ({ s0 with pc := 0xFFE }.withFetchWord 16 0x6011).pc.toNat ≤ 0xFFE ∧
      decode [({ s0 with pc := 0xFFE }.withFetchWord 16 0x6011).readByte 0xFFE,
        ({ s0 with pc := 0xFFE }.withFetchWord 16 0x6011).readByte 0xFFF] = .ok (.ldByte 0 0x11, []) :=
  ⟨rfl, by decide, rfl⟩

theorem witness_FetchFaultsExactlyOutOfRange :
    0xFFE < ({ s0 with pc := 0xFFF } : State).pc.toNat ∧ ({ s0 with pc := 0xFFF } : State).run = .running ∧
      ({ s0 with pc := 0xFFE } : State).pc.toNat ≤ 0xFFE := by decide

theorem witness_IllegalWordFaults :
    s0.run = .running ∧ s0.pc.toNat ≤ 0xFFE ∧ decodeWord s0.fetchedWord = none := by decide

theorem witness_HaltedIsTerminal :
    (s0.halt (.fetchOutOfRange 0x1000)).run = .halted (.fetchOutOfRange 0x1000) := rfl

/-- A fault of the fetch, one of the decode and one of an instruction. -/
theorem witness_FaultsArePrecise :
    (∃ t, State.cycle { s0 with pc := 0xFFF } 1 2 = (t, .fault (.fetchOutOfRange 0xFFF))) ∧
      (∃ t, s0.cycle 1 2 = (t, .fault (.unimplementedOpcode 0x0000 0x200))) ∧
      ∃ t, (s0.withFetchWord 16 0x00EE).cycle 1 2 = (t, .fault (.stackUnderflow 0x00EE 0x200)) :=
  ⟨⟨_, rfl⟩, ⟨_, rfl⟩, ⟨_, rfl⟩⟩

theorem witness_InstructionsRaiseOnlyTheirOwnFault :
    exec .ret s0 = .fault (.stackUnderflow 0x00EE 0x1FE) ∧
      exec (.call 0x400) { s0 with sp := 16 } = .fault (.stackOverflow 0x2400 0x1FE) ∧
      exec (.ldBcd 0) (s0.setIndex 0xFFE) = .fault (.addressOutOfRange 0xF033 0x1FE 0x1000) := ⟨rfl, rfl, rfl⟩

theorem witness_StepIsTheWaitingCycle :
    ({ s0 with inputs := [.cycle 5 7] } : State).run = .running ∧
      ({ s0 with inputs := [.cycle 5 7] } : State).inputs = .cycle 5 7 :: [] := ⟨rfl, rfl⟩

theorem witness_CycleInputsAreLatched :
    ({ s0 with inputs := [.cycle 5 7, .keyPress 1] } : State).inputs = .cycle 5 7 :: [.keyPress 1] ∧
      s0.inputs = [] := ⟨rfl, rfl⟩

/-- The core that waits for a timer check and then runs CLS. -/
def ticking : State := { s0.withFetchWord 16 0x00E0 with dt := 5, inputs := [.timerCheck 500, .cycle 501 0] }

theorem witness_KeypadChangesOnlyByKeyEvents :
    (∃ t, step ticking = .next t) ∧ ∀ k, .keyPress k ∉ ticking.inputs ∧ .keyRelease k ∉ ticking.inputs :=
  ⟨exists_of_steps (by decide), fun k => by simp [ticking]⟩

theorem witness_ClockNeverGoesBack :
    ticking.dtLast ≤ ticking.now ∧ ticking.stLast ≤ ticking.now ∧ ticking.hostDuty = true ∧
      ∃ t, step ticking = .next t :=
  ⟨by decide, by decide, by decide, exists_of_steps (by decide)⟩

/-- A check at exactly the period and one just after it (V-K13, V-K14). -/
theorem witness_TimerCheckResult :
    s0.run = .running ∧
      ¬(({ s0 with dt := 5, dtLast := 1000 } : State).dt ≠ 0 ∧ 1000 + s0.cfg.timerPeriod < 1100) ∧
      (({ s0 with dt := 5, dtLast := 1000 } : State).dt ≠ 0 ∧ 1000 + s0.cfg.timerPeriod < 1101) := by decide

/-- Both timers decrement twice; both are 0. -/
theorem witness_DecrementsAreMoreThanAPeriodApart :
    ((({ s0 with dt := 5, st := 5 } : State).timerCheck 101).dt ≠ 5 ∧
        ((({ s0 with dt := 5, st := 5 } : State).timerCheck 101).timerCheck 202).dt ≠ 4) ∧
      ((({ s0 with dt := 5, st := 5 } : State).timerCheck 101).st ≠ 5 ∧
        ((({ s0 with dt := 5, st := 5 } : State).timerCheck 101).timerCheck 202).st ≠ 4) ∧
      s0.run = .running ∧ s0.dt = 0 ∧ s0.st = 0 := by decide

theorem witness_KeyEventResult : s0.run = .running ∧ 0 < 16 ∧ 15 < 16 ∧ 15 < 16 := by decide

/-- A two-byte image; the addresses just above it, below the font and above it. -/
theorem witness_ConstructedState :
    (∃ s, construct cfg0 (some [0x12, 0x00]) 7 = .ok s) ∧ (0x04F < 0x200 ∧ ¬(0x050 ≤ 0x04F ∧ 0x04F ≤ 0x09F)) ∧
      (0x1FF < 0x200 ∧ ¬(0x050 ≤ 0x1FF ∧ 0x1FF ≤ 0x09F)) := ⟨⟨_, rfl⟩, by decide, by decide⟩

theorem witness_ImageIsLoadedVerbatim :
    (∃ s, construct cfg0 (some [0x12, 0x00]) 7 = .ok s) ∧ 1 < [(0x12 : Byte), 0x00].length ∧
      0x200 + [(0x12 : Byte), 0x00].length ≤ 0x202 := ⟨⟨_, rfl⟩, by decide, by decide⟩

/-- The longest image that fits and the shortest that does not (V-R2, V-R3). -/
theorem witness_LoadErrors :
    3584 < (List.replicate 3585 (0xFF : Byte)).length ∧ (List.replicate 3584 (0xFF : Byte)).length ≤ 3584 := by
  rw [List.length_replicate, List.length_replicate]; decide

theorem witness_InvariantHoldsAfterConstruct :
    cfg0.wf = true ∧ ∃ s, construct cfg0 (some [0x12, 0x00]) 7 = .ok s := ⟨by decide, ⟨_, rfl⟩⟩

theorem witness_StepKeepsInvariant : ticking.Inv ∧ ∃ t, step ticking = .next t :=
  ⟨⟨by decide, by decide, by decide, by decide, by decide, by decide, by decide, by decide⟩,
    exists_of_steps (by decide)⟩

theorem witness_JumpResult : (0x1FFF : Word) &&& 0xF000 = 0x1000 ∧ 0xFFE < (0xFFF : Word).toNat := by decide

/-- The last call that fits, the first that does not, and a cycle that fetches it. -/
theorem witness_CallResult :
    (0x2400 : Word) &&& 0xF000 = 0x2000 ∧ ({ s0 with sp := 15 } : State).sp.val < 16 ∧
      16 ≤ ({ s0 with sp := 16 } : State).sp.val ∧
      ({ s0 with sp := 16 }.withFetchWord 16 0x2400).run = .running ∧
      ({ s0 with sp := 16 }.withFetchWord 16 0x2400).pc.toNat ≤ 0xFFE ∧
      decodeWord ({ s0 with sp := 16 }.withFetchWord 16 0x2400).fetchedWord = some (.call 0x400) ∧
      16 ≤ ({ s0 with sp := 16 }.withFetchWord 16 0x2400).sp.val := by decide

/-- The first and the last entry, an entry above 0xFFE, the empty stack, and a cycle that fetches 00EE. -/
theorem witness_ReturnResult :
    ({ s0 with sp := 1 } : State).sp.val = (0 : Fin 16).val + 1 ∧
      ({ s0 with sp := 16 } : State).sp.val = (15 : Fin 16).val + 1 ∧
      0xFFE < ({ s0 with stack := s0.stack.set 0 0x1000 } : State).stack[(0 : Fin 16)].toNat ∧ s0.sp = 0 ∧
      (s0.withFetchWord 16 0x00EE).run = .running ∧ (s0.withFetchWord 16 0x00EE).pc.toNat ≤ 0xFFE ∧
      (s0.withFetchWord 16 0x00EE).fetchedWord = 0x00EE ∧ (s0.withFetchWord 16 0x00EE).sp = 0 := by decide

/-- A call from the last free entry, returned from at once. -/
theorem witness_CallThenReturn :
    ∃ t u : State, exec (.call 0x400) { s0 with sp := 15 } = .next t ∧ u.sp = t.sp ∧
      ∀ k : Fin 16, k.val = ({ s0 with sp := 15 } : State).sp.val → u.stack[k] = t.stack[k] := by
  obtain ⟨t, ht⟩ := exists_of_runs (i := .call 0x400) (s := { s0 with sp := 15 }) (by decide)
  exact ⟨t, t, ht, rfl, fun _ _ => rfl⟩

/-- The words, and the skips from 0xFFC that leave the fetch range (V-C9). -/
theorem witness_SkipOnImmediate :
    (0x3342 : Word) &&& 0xF000 = 0x3000 ∧ (0x4342 : Word) &&& 0xF000 = 0x4000 ∧
      (∃ t, exec (.seByte 0 0x00) { s0 with pc := 0xFFE } = .next t ∧ 0xFFE < t.pc.toNat) ∧
      ∃ t, exec (.sneByte 0 0x01) { s0 with pc := 0xFFE } = .next t ∧ 0xFFE < t.pc.toNat :=
  ⟨by decide, by decide, ⟨_, rfl, by decide⟩, ⟨_, rfl, by decide⟩⟩

theorem witness_SkipOnRegister :
    (0x5120 : Word) &&& 0xF00F = 0x5000 ∧ (0x9120 : Word) &&& 0xF00F = 0x9000 ∧
      (family 0x5121 = 0x5 ∧ fieldN 0x5121 ≠ 0) ∧ (family 0x912F = 0x9 ∧ fieldN 0x912F ≠ 0) := by decide

/-- Key 3 by way of 0x13, and key 15 by way of 0xFF. -/
theorem witness_SkipOnKey :
    (0xE59E : Word) &&& 0xF0FF = 0xE09E ∧ (0xE5A1 : Word) &&& 0xF0FF = 0xE0A1 ∧
      (3 : Fin 16).val = ((setRegs s0 [(5, 0x13)]).reg 5).toNat % 16 ∧
      (15 : Fin 16).val = ((setRegs s0 [(5, 0xFF)]).reg 5).toNat % 16 := by decide

theorem witness_JumpOffsetResult :
    s0.cfg.quirkJump = .original ∧ s1.cfg.quirkJump = .superchip ∧
      (3 : Reg).val = (0x320 : Word).toNat / 256 % 16 ∧ (15 : Reg).val = (0xFFF : Word).toNat / 256 % 16 ∧
      (Instr.jpOffset 0xFFF).wf = true := by decide

theorem witness_LoadAndAddImmediate :
    (0x6F12 : Word) &&& 0xF000 = 0x6000 ∧ (0x7F01 : Word) &&& 0xF000 = 0x7000 ∧
      (0x8F10 : Word) &&& 0xF00F = 0x8000 := by decide

/-- A destination other than VF; sums 255 and 256. -/
theorem witness_AddWithCarryResult :
    (1 : Reg) ≠ VF ∧ ¬256 ≤ (0xFE : Byte).toNat + (0x01 : Byte).toNat ∧
      256 ≤ (0xFF : Byte).toNat + (0x01 : Byte).toNat := by decide

/-- A destination other than VF; operands that are equal and that differ by a borrow. -/
theorem witness_SubtractResult :
    (1 : Reg) ≠ VF ∧ (0x05 : Byte).toNat ≤ (0x05 : Byte).toNat ∧ ¬(0x01 : Byte).toNat ≤ (0x00 : Byte).toNat := by
  decide

/-- Both shift quirks. -/
theorem witness_ShiftResult :
    (2 : Byte) = (if (setRegs s0 [(1, 2), (2, 3)]).cfg.quirkShift = .legacy then 3 else 2) ∧
      (3 : Byte) = (if (setRegs s1 [(1, 2), (2, 3)]).cfg.quirkShift = .legacy then 3 else 2) ∧ (1 : Reg) ≠ VF := by
  decide

theorem witness_RandomResult : ({ s0 with rnd := 0x3C } : State).rnd = 0x3C := rfl

theorem witness_SetIndexResult :
    (0xAFFF : Word) &&& 0xF000 = 0xA000 ∧ (0xFF29 : Word) &&& 0xF0FF = 0xF029 := by decide

/-- The last address that fits and the first that does not (V-M12, V-M13). -/
theorem witness_BcdResult :
    (s0.setIndex 0xFFD).memOk ∧ (s0.setIndex 0xFFD).i.toNat + 2 ≤ 0xFFF ∧
      0xFFF < (s0.setIndex 0xFFE).i.toNat + 2 := by decide

/-- The last address that fits and the first that does not, for X = F and X = 0 (V-M15, V-M16). -/
theorem witness_StoreRegistersResult :
    (s1.setIndex 0xFF0).memOk ∧ (s1.setIndex 0xFF0).i.toNat + (15 : Reg).val ≤ 0xFFF ∧
      0xFFF < (s1.setIndex 0xFF1).i.toNat + (15 : Reg).val ∧ (s0.setIndex 0xFFF).i.toNat + (0 : Reg).val ≤ 0xFFF ∧
      0xFFF < (s0.setIndex 0x1000).i.toNat + (0 : Reg).val ∧ s1.cfg.quirkIndexInc = .yes ∧
      (0 : Reg) ≤ 15 ∧ (15 : Reg) ≤ 15 := by decide

theorem witness_LoadRegistersResult :
    (s1.setIndex 0xFF0).i.toNat + (15 : Reg).val ≤ 0xFFF ∧
      0xFFF < (s1.setIndex 0xFF1).i.toNat + (15 : Reg).val ∧ (s0.setIndex 0xFFF).i.toNat + (0 : Reg).val ≤ 0xFFF ∧
      0xFFF < (s0.setIndex 0x1000).i.toNat + (0 : Reg).val := by decide

/-- A store of V0 to V2 under QUIRK_INDEX_INC = yes; then I set back and the registers cleared. -/
theorem witness_StoreThenLoadRestores :
    (s1.setIndex 0x300).memOk ∧ ∃ t u : State, exec (.storeRegs 2) (s1.setIndex 0x300) = .next t ∧
      (∀ a, u.readByte a = t.readByte a) ∧ u.i = (s1.setIndex 0x300).i ∧ ∀ r, u.reg r = 0 := by
  obtain ⟨t, ht⟩ := exists_of_runs (i := .storeRegs 2) (s := s1.setIndex 0x300) (by decide)
  refine ⟨by decide, t, { t with i := 0x300, v := Vector.replicate 16 0 }, ht, fun _ => rfl, rfl, fun r => ?_⟩
  simp [State.reg]

theorem witness_StoredCodeIsFetched :
    (s0.setIndex 0xFF0).memOk ∧ (∃ t, exec (.storeRegs 15) (s0.setIndex 0xFF0) = .next t) ∧
      (15 : Reg).val = (14 : Reg).val + 1 ∧ (15 : Reg) ≤ 15 :=
  ⟨by decide, exists_of_runs (by decide), by decide, by decide⟩

/-- No row, all rows up to the last byte of memory, and rows clipped at the bottom edge (V-D4). -/
theorem witness_DrawFlipsCoveredCells :
    drawInRange 1 0 (s0.setIndex 0x1005) ∧ drawInRange 1 2 (s0.setIndex 0xFFE) ∧
      drawInRange 1 5 ((setRegs s0 [(1, 0x1E)]).setIndex 0xFFE) := by
  unfold drawInRange; decide

/-- A draw on a lit cell and one on a clear canvas. -/
theorem witness_DrawSetsCollisionFlag :
    (∃ t, exec (.drw 0 1 5) ((s0.setIndex 0x050).setCell 0 0 true) = .next t) ∧
      (∃ cx cy, drawCovers 0 1 5 ((s0.setIndex 0x050).setCell 0 0 true) cx cy = true ∧
        ((s0.setIndex 0x050).setCell 0 0 true).cell cx cy = true) ∧
      (∃ t, exec (.drw 0 1 5) (s0.setIndex 0x050) = .next t) ∧
      ¬∃ cx cy, drawCovers 0 1 5 (s0.setIndex 0x050) cx cy = true ∧ (s0.setIndex 0x050).cell cx cy = true :=
  ⟨exists_of_runs (by decide), ⟨0, 0, by decide, by decide⟩, exists_of_runs (by decide),
    fun ⟨cx, cy, _, h⟩ => by simp [State.cell, s0, State.fresh, State.setIndex] at h⟩

theorem witness_DrawFaultsOutOfRange :
    ¬drawInRange 1 3 (s0.setIndex 0xFFE) ∧ ¬drawInRange 1 1 (s0.setIndex 0x1000) := by
  unfold drawInRange; decide

theorem witness_DrawTwiceRestores :
    ∃ t, exec (.drw 0 1 5) (s0.setIndex 0x050) = .next t ∧ spriteColumn 0 t = spriteColumn 0 (s0.setIndex 0x050) ∧
      spriteRow 1 t = spriteRow 1 (s0.setIndex 0x050) := ⟨_, rfl, by decide, by decide⟩

/-- No key; key 0 before key 15; key 15 alone (V-K6 to V-K8). -/
theorem witness_KeyWaitResult :
    (∀ k : Fin 16, s0.key[k] = false) ∧
      (let s := { s0 with key := (s0.key.set 0 true).set 15 true }
       s.key[(0 : Fin 16)] = true ∧ ∀ j : Fin 16, j < 0 → s.key[j] = false) ∧
      (let s := { s0 with key := s0.key.set 15 true }
       s.key[(15 : Fin 16)] = true ∧ ∀ j : Fin 16, j < 15 → s.key[j] = false) := by decide

theorem witness_ReadDelayTimerResult : (0xF107 : Word) &&& 0xF0FF = 0xF007 := by decide

/-- FX33, FX55, 2NNN from the last free entry, 00EE, DXYN and 00E0; for each clause what lies just outside what the
instruction writes. -/
theorem witness_EveryInstructionKeepsItsFrame :
    ((∃ t, exec (.ldBcd 0) (s0.setIndex 0xFFD) = .next t) ∧
        ¬((s0.setIndex 0xFFD).i.toNat ≤ 0xFFC ∧ 0xFFC < (s0.setIndex 0xFFD).i.toNat + bytesStored (.ldBcd 0))) ∧
      ((∃ t, exec (.storeRegs 1) (s0.setIndex 0x300) = .next t) ∧
        ¬((s0.setIndex 0x300).i.toNat ≤ 0x302 ∧ 0x302 < (s0.setIndex 0x300).i.toNat + bytesStored (.storeRegs 1))) ∧
      ((∃ t, exec (.call 0x400) { s0 with sp := 15 } = .next t) ∧
        stackEntryWritten (.call 0x400) { s0 with sp := 15 } 14 = false) ∧
      ((∃ t, exec .ret { s0 with sp := 16 } = .next t) ∧
        stackEntryWritten .ret { s0 with sp := 16 } 15 = false) ∧
      ((∃ t, exec (.drw 0 1 5) (s0.setIndex 0x050) = .next t) ∧
        cellWritten (.drw 0 1 5) (s0.setIndex 0x050) 0 5 = false ∧
        cellWritten (.drw 0 1 5) (s0.setIndex 0x050) 4 0 = false) ∧
      ((∃ t, exec (.jp 0x228) s0 = .next t) ∧ cellWritten (.jp 0x228) s0 63 31 = false) :=
  ⟨⟨exists_of_runs (by decide), by decide⟩, ⟨exists_of_runs (by decide), by decide⟩,
    ⟨exists_of_runs (by decide), by decide⟩, ⟨exists_of_runs (by decide), by decide⟩,
    ⟨exists_of_runs (by decide), by decide, by decide⟩, exists_of_runs (by decide), by decide⟩

/-- The default rate, and units per second for which the period is several units, exactly one, and less than one. -/
theorem witness_DefaultParameters :
    (⟨60, 1⟩ : Rate).positive = true ∧ Config.periodOf ⟨1000, 1⟩ ⟨60, 1⟩ false = 16 ∧
      Config.periodOf ⟨1000, 1⟩ ⟨60, 1⟩ true = 17 ∧ Config.periodOf ⟨60, 1⟩ ⟨60, 1⟩ true = 1 ∧
      Config.periodOf ⟨1, 1⟩ ⟨60, 1⟩ false = 1 := by decide

/-- 00EE, BNNN under each quirk, FX0A with no key. -/
theorem witness_PcAfterExecute :
    (∃ t, exec .ret { s0 with sp := 1 } = .next t) ∧ (∃ t, exec (.jpOffset 0xFFF) s0 = .next t) ∧
      (∃ t, exec (.jpOffset 0xFFF) s1 = .next t) ∧ ∃ t, exec (.ldKey 3) s0 = .next t :=
  ⟨exists_of_runs (by decide), exists_of_runs (by decide), exists_of_runs (by decide), exists_of_runs (by decide)⟩

theorem witness_OnlyCallAndReturnTouchTheStack :
    (Instr.storeRegs 15) ≠ .ret ∧ ∀ nnn, (Instr.storeRegs 15) ≠ .call nnn := ⟨by decide, fun _ h => by cases h⟩

theorem witness_OnlyClearAndDrawWriteTheDisplay :
    (∃ t, exec (.ldByte 0 1) s0 = .next t) ∧ (Instr.ldByte 0 1) ≠ .cls ∧ ∀ x y n, (Instr.ldByte 0 1) ≠ .drw x y n :=
  ⟨exists_of_runs (by decide), by decide, fun _ _ _ h => by cases h⟩

theorem witness_CycleInputsMatterOnlyToTheirReaders :
    (∀ x nn, (Instr.ldDelay 2) ≠ .rnd x nn) ∧ (∀ x, (Instr.rnd 1 0xFF) ≠ .ldDelay x) ∧
      ∀ x, (Instr.rnd 1 0xFF) ≠ .ldSound x :=
  ⟨fun _ _ h => (by cases h), fun _ h => (by cases h), fun _ h => (by cases h)⟩

end Sys2Proof.Tests
end

/-! PROOFS. SP and STACK are read and written by 2NNN and 00EE alone (10_state.md R31): every other operation of an
instruction commutes with putting any stack and any SP into the state. -/

namespace Sys2Proof.Machine

/-- The state with another stack and another SP. -/
def State.withStack (s : State) (stack : Vector Word 16) (sp : Fin 17) : State := { s with stack := stack, sp := sp }

section
variable (s : State) (stack : Vector Word 16) (sp : Fin 17)

/-! ### Reads do not see the stack -/

@[simp] theorem State.reg_withStack (r : Reg) : (s.withStack stack sp).reg r = s.reg r := rfl

@[simp] theorem State.readByte_withStack (a : Nat) : (s.withStack stack sp).readByte a = s.readByte a := rfl

@[simp] theorem State.withStack_i : (s.withStack stack sp).i = s.i := rfl

@[simp] theorem State.withStack_cfg : (s.withStack stack sp).cfg = s.cfg := rfl

@[simp] theorem lowestKey_withStack : lowestKey (s.withStack stack sp) = lowestKey s := rfl

@[simp] theorem spriteColumn_withStack (x : Reg) : spriteColumn x (s.withStack stack sp) = spriteColumn x s := rfl

@[simp] theorem spriteRow_withStack (y : Reg) : spriteRow y (s.withStack stack sp) = spriteRow y s := rfl

@[simp] theorem spriteRows_withStack (y : Reg) (n : Nat) : spriteRows y n (s.withStack stack sp) = spriteRows y n s :=
  rfl

/-! ### Writes commute with a change of the stack -/

@[simp] theorem State.setReg_withStack (r : Reg) (b : Byte) :
    (s.withStack stack sp).setReg r b = (s.setReg r b).withStack stack sp := rfl

@[simp] theorem State.writeByte_withStack (a : Nat) (b : Byte) :
    (s.withStack stack sp).writeByte a b = (s.writeByte a b).withStack stack sp := rfl

@[simp] theorem State.skipIf_withStack (c : Bool) :
    (s.withStack stack sp).skipIf c = (s.skipIf c).withStack stack sp := by
  cases c <;> rfl

@[simp] theorem State.bumpIndex_withStack (x : Reg) :
    (s.withStack stack sp).bumpIndex x = (s.bumpIndex x).withStack stack sp := by
  unfold State.bumpIndex
  rw [State.withStack_cfg]
  split <;> rfl

/-! ### Loops commute with a change of the stack -/

@[simp] theorem storeEach_withStack (base : Nat) (rs : List Reg) :
    storeEach base rs (s.withStack stack sp) = (storeEach base rs s).withStack stack sp := by
  induction rs generalizing s with
  | nil => rfl
  | cons r rs ih => simp [storeEach, ih]

@[simp] theorem loadEach_withStack (base : Nat) (rs : List Reg) :
    loadEach base rs (s.withStack stack sp) = (loadEach base rs s).withStack stack sp := by
  induction rs generalizing s with
  | nil => rfl
  | cons r rs ih => simp [loadEach, ih]

@[simp] theorem drawPixel_withStack (x y : Nat) :
    drawPixel x y (s.withStack stack sp) = (drawPixel x y s).withStack stack sp := by
  unfold drawPixel
  split <;> rfl

@[simp] theorem drawColumns_withStack (b : Byte) (x0 y : Nat) (cs : List Nat) :
    drawColumns b x0 y cs (s.withStack stack sp) = (drawColumns b x0 y cs s).withStack stack sp := by
  induction cs generalizing s with
  | nil => rfl
  | cons c cs ih =>
    rw [drawColumns, drawColumns, ← ih, drawPixel_withStack]
    split <;> rfl

@[simp] theorem drawRows_withStack (x0 y0 : Nat) (rs : List Nat) :
    drawRows x0 y0 rs (s.withStack stack sp) = (drawRows x0 y0 rs s).withStack stack sp := by
  induction rs generalizing s with
  | nil => rfl
  | cons r rs ih => simp [drawRows, ih]

@[simp] theorem drawSprite_withStack (x0 y0 rows : Nat) :
    drawSprite x0 y0 rows (s.withStack stack sp) = (drawSprite x0 y0 rows s).withStack stack sp := by
  simp [drawSprite]

/-! ### Outcomes commute with a change of the stack -/

theorem next_skipIf_withStack (c : Bool) :
    (.next ((s.withStack stack sp).skipIf c) : Result) = mapNext (·.withStack stack sp) (.next (s.skipIf c)) :=
  congrArg _ (s.skipIf_withStack stack sp c)

/-- A range check reads I and the pc alone (R170), so it passes or faults as before. -/
theorem rangeCheck_withStack (w : Word) (m : Nat) (t : State) :
    rangeCheck w m (s.withStack stack sp) (.next (t.withStack stack sp)) =
      mapNext (·.withStack stack sp) (rangeCheck w m s (.next t)) := by
  unfold rangeCheck
  rw [State.withStack_i]
  split <;> rfl

theorem execLdKey_withStack (x : Reg) :
    execLdKey x (s.withStack stack sp) = mapNext (·.withStack stack sp) (execLdKey x s) := by
  unfold execLdKey
  rw [lowestKey_withStack]
  split <;> rfl

theorem execDrw_withStack (x y : Reg) (n : Nat) :
    execDrw x y n (s.withStack stack sp) = mapNext (·.withStack stack sp) (execDrw x y n s) := by
  simp only [execDrw, spriteRows_withStack, spriteColumn_withStack, spriteRow_withStack, drawSprite_withStack]
  split
  · rfl
  · exact rangeCheck_withStack ..

theorem execLdBcd_withStack (x : Reg) :
    execLdBcd x (s.withStack stack sp) = mapNext (·.withStack stack sp) (execLdBcd x s) := by
  simp only [execLdBcd, State.withStack_i, State.reg_withStack, State.writeByte_withStack, rangeCheck_withStack]

theorem execStoreRegs_withStack (x : Reg) :
    execStoreRegs x (s.withStack stack sp) = mapNext (·.withStack stack sp) (execStoreRegs x s) := by
  simp only [execStoreRegs, State.withStack_i, storeEach_withStack, State.bumpIndex_withStack, rangeCheck_withStack]

theorem execLoadRegs_withStack (x : Reg) :
    execLoadRegs x (s.withStack stack sp) = mapNext (·.withStack stack sp) (execLoadRegs x s) := by
  simp only [execLoadRegs, State.withStack_i, loadEach_withStack, State.bumpIndex_withStack, rangeCheck_withStack]

/-- R31 instruction by instruction: one that answers after plain writes commutes with a change of the stack by
computation, and one that branches or loops by the lemma above for its shared operation. -/
theorem exec_withStack {i : Instr} (hret : i ≠ .ret) (hcall : ∀ nnn, i ≠ .call nnn) :
    exec i (s.withStack stack sp) = mapNext (·.withStack stack sp) (exec i s) := by
  cases i with
  | ret => exact absurd rfl hret
  | call nnn => exact absurd rfl (hcall nnn)
  | cls | jp | jpOffset | ldByte | addByte | ldReg | orReg | andReg | xorReg | addReg | sub | shr | subn | shl | rnd
  | ldIndex | addIndex | ldFont | ldFromDelay | ldDelay | ldSound => rfl
  | seByte | sneByte | seReg | sneReg | skp | sknp => exact next_skipIf_withStack s stack sp _
  | ldKey x => exact execLdKey_withStack s stack sp x
  | drw x y n => exact execDrw_withStack s stack sp x y n
  | ldBcd x => exact execLdBcd_withStack s stack sp x
  | storeRegs x => exact execStoreRegs_withStack s stack sp x
  | loadRegs x => exact execLoadRegs_withStack s stack sp x

end

/-- Settles O57, by the commutation of every other instruction with a change of SP and STACK. -/
theorem onlyCallAndReturnTouchTheStack : Obligations.OnlyCallAndReturnTouchTheStack :=
  fun _ s stack sp hret hcall => exec_withStack s stack sp hret hcall

end Sys2Proof.Machine

/-! PROOFS. Decoding agrees with the opcode table R76: a decoded word is the encoding of its instruction, which matches
the instruction's row; and each row of the table has its lemma `decodeWord_<instruction>`. -/

namespace Sys2Proof

/-! ### A masked word is the form that its kept fields build (R71, R76) -/

theorem fieldNNN_and_F000 (w : Word) : fieldNNN (w &&& 0xF000#16) = 0 := by
  apply BitVec.eq_of_getLsbD_eq
  intro k hk
  interval_cases k <;> simp [fieldNNN]

theorem fieldX_and_F0FF (w : Word) : fieldX (w &&& 0xF0FF#16) = 0 := by
  have h : (w &&& 0xF0FF#16).extractLsb' 8 4 = 0 := by
    apply BitVec.eq_of_getLsbD_eq
    intro k hk
    interval_cases k <;> simp
  rw [fieldX, h]; rfl

theorem fieldX_and_F00F (w : Word) : fieldX (w &&& 0xF00F#16) = 0 := by
  have h : w &&& 0xF00F#16 = w &&& 0xF00F#16 &&& 0xF0FF#16 := by rw [BitVec.and_assoc]; rfl
  rw [h, fieldX_and_F0FF]

theorem fieldY_and_F00F (w : Word) : fieldY (w &&& 0xF00F#16) = 0 := by
  have h : (w &&& 0xF00F#16).extractLsb' 4 4 = 0 := by
    apply BitVec.eq_of_getLsbD_eq
    intro k hk
    interval_cases k <;> simp
  rw [fieldY, h]; rfl

theorem and_F000 (w : Word) : w &&& 0xF000#16 = formNNN (family w).toNat 0 := by
  rw [← formNNN_fields (w &&& 0xF000#16), family_and_F000, fieldNNN_and_F000]

theorem and_F00F (w : Word) : w &&& 0xF00F#16 = formXYN (family w).toNat 0 0 (fieldN w).toNat := by
  rw [← formXYN_fields (w &&& 0xF00F#16), family_and_F00F, fieldX_and_F00F, fieldY_and_F00F, fieldN_and_F00F]

theorem and_F0FF (w : Word) : w &&& 0xF0FF#16 = formXNN (family w).toNat 0 (fieldNN w) := by
  rw [← formXNN_fields (w &&& 0xF0FF#16), family_and_F0FF, fieldX_and_F0FF, fieldNN_and_F0FF]

/-! ### The word of an instruction matches the instruction's row -/

theorem OpcodeRow.matchesWord_iff {r : OpcodeRow} {w : Word} : r.matchesWord w = true ↔ w &&& r.mask = r.pattern :=
  decide_eq_true_iff

/-- The mask keeps the family and the fixed low field of the instruction's form, and drops its operands. -/
theorem encode_and_mask (i : Instr) : encode i &&& i.row.mask = i.row.pattern := by
  cases i with
  | cls | ret => rfl
  | jp nnn | call nnn | ldIndex nnn | jpOffset nnn =>
    exact (and_F000 _).trans (by rw [encode, family_formNNN (by decide)]; rfl)
  | seByte x nn | sneByte x nn | ldByte x nn | addByte x nn | rnd x nn =>
    exact (and_F000 _).trans (by rw [encode, family_formXNN (by decide)]; rfl)
  | drw x y n => exact (and_F000 _).trans (by rw [encode, family_formXYN (by decide)]; rfl)
  | seReg x y | sneReg x y | ldReg x y | orReg x y | andReg x y | xorReg x y | addReg x y | sub x y | shr x y
  | subn x y | shl x y =>
    exact (and_F00F _).trans (by rw [encode, family_formXYN (by decide), fieldN_formXYN (by decide)]; rfl)
  | skp x | sknp x | ldFromDelay x | ldKey x | ldDelay x | ldSound x | addIndex x | ldFont x | ldBcd x | storeRegs x
  | loadRegs x =>
    exact (and_F0FF _).trans (by rw [encode, family_formXNN (by decide), fieldNN_formXNN (by decide)]; rfl)

theorem row_matchesWord_encode (i : Instr) : i.row.matchesWord (encode i) = true :=
  OpcodeRow.matchesWord_iff.2 (encode_and_mask i)

theorem row_mem_opcodeTable (i : Instr) : i.row ∈ opcodeTable := by
  cases i <;> exact of_decide_eq_true rfl

/-! ### A decoded word is the encoding of its instruction (R77) -/

theorem formNNN_of_family {w : Word} {f : BitVec 4} (h : family w = f) : formNNN f.toNat (fieldNNN w) = w :=
  h ▸ formNNN_fields w

theorem formXNN_of_family {w : Word} {f : BitVec 4} (h : family w = f) :
    formXNN f.toNat (fieldX w) (fieldNN w) = w :=
  h ▸ formXNN_fields w

theorem formXYN_of_family {w : Word} {f : BitVec 4} (h : family w = f) :
    formXYN f.toNat (fieldX w) (fieldY w) (fieldN w).toNat = w :=
  h ▸ formXYN_fields w

/-- Families 5 and 9, whose low nibble must be 0 (R80). -/
theorem formXYN_of_family_of_fieldN {w : Word} {f n : BitVec 4} (h : family w = f) (hn : fieldN w = n) :
    formXYN f.toNat (fieldX w) (fieldY w) n.toNat = w :=
  hn ▸ formXYN_of_family h

/-- The branches of `decodeWord` in order, family 0 to family F: each puts the word's own fields into the form that the
encoder builds from them. -/
theorem encode_decodeWord {w : Word} {i : Instr} (h : decodeWord w = some i) : encode i = w ∧ i.wf = true := by
  unfold decodeWord at h
  obtain ⟨-, h⟩ | ⟨h0, h⟩ := ite_eq_iff.1 h
  · obtain ⟨hw, h⟩ | ⟨-, h⟩ := ite_eq_iff.1 h
    · cases h; exact ⟨hw.symm, rfl⟩
    · obtain ⟨hw, h⟩ | ⟨-, h⟩ := ite_eq_iff.1 h
      · cases h; exact ⟨hw.symm, rfl⟩
      · cases h
  obtain ⟨hf, h⟩ | ⟨h1, h⟩ := ite_eq_iff.1 h
  · cases h; exact ⟨(formNNN_of_family hf :), fitsNNN_fieldNNN w⟩
  obtain ⟨hf, h⟩ | ⟨h2, h⟩ := ite_eq_iff.1 h
  · cases h; exact ⟨(formNNN_of_family hf :), fitsNNN_fieldNNN w⟩
  obtain ⟨hf, h⟩ | ⟨h3, h⟩ := ite_eq_iff.1 h
  · cases h; exact ⟨(formXNN_of_family hf :), rfl⟩
  obtain ⟨hf, h⟩ | ⟨h4, h⟩ := ite_eq_iff.1 h
  · cases h; exact ⟨(formXNN_of_family hf :), rfl⟩
  obtain ⟨hf, h⟩ | ⟨h5, h⟩ := ite_eq_iff.1 h
  · obtain ⟨hn, h⟩ | ⟨-, h⟩ := ite_eq_iff.1 h <;> cases h
    exact ⟨(formXYN_of_family_of_fieldN hf hn :), rfl⟩
  obtain ⟨hf, h⟩ | ⟨h6, h⟩ := ite_eq_iff.1 h
  · cases h; exact ⟨(formXNN_of_family hf :), rfl⟩
  obtain ⟨hf, h⟩ | ⟨h7, h⟩ := ite_eq_iff.1 h
  · cases h; exact ⟨(formXNN_of_family hf :), rfl⟩
  obtain ⟨hf, h⟩ | ⟨h8, h⟩ := ite_eq_iff.1 h
  · exact encode_decodeFamily8 hf h
  obtain ⟨hf, h⟩ | ⟨h9, h⟩ := ite_eq_iff.1 h
  · obtain ⟨hn, h⟩ | ⟨-, h⟩ := ite_eq_iff.1 h <;> cases h
    exact ⟨(formXYN_of_family_of_fieldN hf hn :), rfl⟩
  obtain ⟨hf, h⟩ | ⟨hA, h⟩ := ite_eq_iff.1 h
  · cases h; exact ⟨(formNNN_of_family hf :), fitsNNN_fieldNNN w⟩
  obtain ⟨hf, h⟩ | ⟨hB, h⟩ := ite_eq_iff.1 h
  · cases h; exact ⟨(formNNN_of_family hf :), fitsNNN_fieldNNN w⟩
  obtain ⟨hf, h⟩ | ⟨hC, h⟩ := ite_eq_iff.1 h
  · cases h; exact ⟨(formXNN_of_family hf :), rfl⟩
  obtain ⟨hf, h⟩ | ⟨hD, h⟩ := ite_eq_iff.1 h
  · cases h; exact ⟨(formXYN_of_family hf :), fitsN_fieldN w⟩
  obtain ⟨hf, h⟩ | ⟨hE, h⟩ := ite_eq_iff.1 h
  · exact encode_decodeFamilyE hf h
  · exact encode_decodeFamilyF (family_eq_F h0 h1 h2 h3 h4 h5 h6 h7 h8 h9 hA hB hC hD hE) h

/-- A decoded word matches its instruction's row. -/
theorem row_matchesWord_of_decodeWord {w : Word} {i : Instr} (h : decodeWord w = some i) :
    i.row.matchesWord w = true := by
  rw [← (encode_decodeWord h).1]
  exact row_matchesWord_encode i

/-! ### A word that matches a row decodes to an instruction of the row -/

theorem decodeWord_cls {w : Word} (h : w &&& 0xFFFF#16 = 0x00E0#16) : decodeWord w = some .cls := by
  obtain rfl : w = 0x00E0#16 := (BitVec.and_allOnes (x := w)).symm.trans h
  decide

theorem decodeWord_ret {w : Word} (h : w &&& 0xFFFF#16 = 0x00EE#16) : decodeWord w = some .ret := by
  obtain rfl : w = 0x00EE#16 := (BitVec.and_allOnes (x := w)).symm.trans h
  decide

/-- The word decodes to an instruction of the row, if it matches the row. -/
def DecodesIfMatched (w : Word) (r : OpcodeRow) : Prop :=
  r.matchesWord w = true → ∃ i, decodeWord w = some i ∧ i.row = r

/-- A row's own lemma, `decodeWord_<instruction>`, as a fact about the row. -/
theorem DecodesIfMatched.intro {w p m : Word} {i : Instr} (h : w &&& m = p → decodeWord w = some i)
    (hr : i.row = ⟨p, m⟩) : DecodesIfMatched w ⟨p, m⟩ :=
  fun hm => ⟨i, h (OpcodeRow.matchesWord_iff.1 hm), hr⟩

theorem decodesIfMatched_rows0to7 (w : Word) : ∀ r ∈ opcodeRows0to7, DecodesIfMatched w r := by
  simp only [opcodeRows0to7, List.forall_mem_cons]
  exact ⟨.intro decodeWord_cls rfl, .intro decodeWord_ret rfl, .intro decodeWord_jp rfl,
    .intro decodeWord_call rfl, .intro decodeWord_seByte rfl, .intro decodeWord_sneByte rfl,
    .intro decodeWord_seReg rfl, .intro decodeWord_ldByte rfl, .intro decodeWord_addByte rfl,
    List.forall_mem_nil _⟩

theorem decodesIfMatched_rows8 (w : Word) : ∀ r ∈ opcodeRows8, DecodesIfMatched w r := by
  simp only [opcodeRows8, List.forall_mem_cons]
  exact ⟨.intro decodeWord_ldReg rfl, .intro decodeWord_orReg rfl, .intro decodeWord_andReg rfl,
    .intro decodeWord_xorReg rfl, .intro decodeWord_addReg rfl, .intro decodeWord_sub rfl,
    .intro decodeWord_shr rfl, .intro decodeWord_subn rfl, .intro decodeWord_shl rfl, List.forall_mem_nil _⟩

theorem decodesIfMatched_rows9toE (w : Word) : ∀ r ∈ opcodeRows9toE, DecodesIfMatched w r := by
  simp only [opcodeRows9toE, List.forall_mem_cons]
  exact ⟨.intro decodeWord_sneReg rfl, .intro decodeWord_ldIndex rfl, .intro decodeWord_jpOffset rfl,
    .intro decodeWord_rnd rfl, .intro decodeWord_drw rfl, .intro decodeWord_skp rfl, .intro decodeWord_sknp rfl,
    List.forall_mem_nil _⟩

theorem decodesIfMatched_rowsF (w : Word) : ∀ r ∈ opcodeRowsF, DecodesIfMatched w r := by
  simp only [opcodeRowsF, List.forall_mem_cons]
  exact ⟨.intro decodeWord_ldFromDelay rfl, .intro decodeWord_ldKey rfl, .intro decodeWord_ldDelay rfl,
    .intro decodeWord_ldSound rfl, .intro decodeWord_addIndex rfl, .intro decodeWord_ldFont rfl,
    .intro decodeWord_ldBcd rfl, .intro decodeWord_storeRegs rfl, .intro decodeWord_loadRegs rfl,
    List.forall_mem_nil _⟩

theorem decodesIfMatched_opcodeTable (w : Word) : ∀ r ∈ opcodeTable, DecodesIfMatched w r := by
  simp only [opcodeTable, List.forall_mem_append]
  exact ⟨⟨⟨decodesIfMatched_rows0to7 w, decodesIfMatched_rows8 w⟩, decodesIfMatched_rows9toE w⟩,
    decodesIfMatched_rowsF w⟩

/-- Settles O2: a decoded word is the encoding of its instruction and so matches its row, and each row of the table
decodes the words that match it. -/
theorem decodeAgreesWithOpcodeTable : Obligations.DecodeAgreesWithOpcodeTable :=
  ⟨rfl, fun w => ⟨fun i h => ⟨row_mem_opcodeTable i, row_matchesWord_of_decodeWord h⟩,
    decodesIfMatched_opcodeTable w⟩⟩

end Sys2Proof

/-! PROOFS. An illegal word (R86): the cycle that fetches it faults, and the waiting inputs do not change which word is
fetched. -/

namespace Sys2Proof.Machine

@[simp] theorem beginCycle_fetchedWord (s : State) : s.beginCycle.fetchedWord = s.fetchedWord := by
  simp [State.fetchedWord]

/-- A cycle whose word is illegal raises UnimplementedOpcode (R86). -/
theorem runCycle_none {s : State} (hp : s.pc.toNat ≤ 0xFFE) (hd : decodeWord s.fetchedWord = none) :
    runCycle s = .fault (.unimplementedOpcode s.fetchedWord s.pc) := by
  rcases runCycle_cases s with ⟨h, -⟩ | ⟨-, -, e⟩ | ⟨-, i, h, -⟩
  · omega
  · exact e
  · rw [hd] at h; cases h

/-- Settles O8: a step and the host's cycle both run the cycle whose word is illegal, and latching the inputs leaves the
pc and the fetched word as they were. -/
theorem illegalWordFaults : Obligations.IllegalWordFaults := by
  intro s hr hp hd
  constructor
  · rw [step_running hr, runCycle_none (by simpa using hp) (by simpa using hd)]
    simp
  · intro now rnd
    rw [cycle_running hr, runCycle_none (s := { s with now := now, rnd := rnd }) hp hd]
    rfl

end Sys2Proof.Machine

/-! PROOFS. Control transfer (41_control_flow.md R121 to R127): the jump, the call and the return as updates of the pc
and the stack, the cycle that faults on a full or an empty stack, and the skips. -/

namespace Sys2Proof.Machine

/-! ### The call and the return (R121, R123) -/

theorem frame_withStack (s : State) (stack : Vector Word 16) (sp : Fin 17) :
    Frame [] [.stack] s (s.withStack stack sp) :=
  ⟨fun _ _ => rfl, fun _ => rfl, fun _ => rfl, fun h => absurd (by simp) h, fun _ => ⟨rfl, rfl⟩, fun _ => ⟨rfl, rfl⟩,
    fun _ _ => rfl, fun _ _ _ => rfl, SameHostSide.refl _⟩

theorem frame_withStack_setPc (s : State) (stack : Vector Word 16) (sp : Fin 17) (a : Word) :
    Frame [] [.pc, .stack] s ((s.withStack stack sp).setPc a) :=
  ((frame_withStack s stack sp).trans (frame_setPc _ a)).mono (by simp) (by simp)

theorem exec_call (nnn : Word) (s : State) :
    exec (.call nnn) s = push (encode (.call nnn)) s.pc s fun t => .next (t.setPc nnn) := rfl

theorem exec_ret (s : State) : exec .ret s = pop (encode .ret) s fun a t => .next (t.setPc a) := rfl

theorem exec_call_of_lt {s : State} (h : s.sp.val < 16) (nnn : Word) :
    exec (.call nnn) s =
      .next ((s.withStack (s.stack.set s.sp.val s.pc h) ⟨s.sp.val + 1, by omega⟩).setPc nnn) :=
  (exec_call nnn s).trans (push_of_lt h _)

theorem exec_call_of_ge {s : State} (h : 16 ≤ s.sp.val) (nnn : Word) :
    exec (.call nnn) s = .fault (.stackOverflow (encode (.call nnn)) s.ia) :=
  (exec_call nnn s).trans (push_of_ge h _)

theorem exec_ret_of_succ {s : State} {k : Fin 16} (h : s.sp.val = k.val + 1) :
    exec .ret s = .next ((s.withStack s.stack ⟨k.val, by omega⟩).setPc s.stack[k]) := by
  rw [exec_ret, pop_of_pos (by omega)]
  simp only [h, Nat.add_sub_cancel]
  rfl

theorem exec_ret_of_zero {s : State} (h : s.sp = 0) : exec .ret s = .fault (.stackUnderflow 0x00EE s.ia) :=
  (exec_ret s).trans (pop_of_zero (congrArg Fin.val h) _)

/-! ### The cycle whose instruction faults (R232, R233) -/

/-- The host's cycle ends in the fault that the instruction at the pc raises, with the inputs latched. -/
theorem cycle_of_exec_fault {s : State} {i : Instr} {f : Fault} {now : Nat} {rnd : Byte} (hr : s.run = .running)
    (hp : s.pc.toNat ≤ 0xFFE) (hd : decodeWord s.fetchedWord = some i)
    (he : exec i (State.afterFetch { s with now := now, rnd := rnd }) = .fault f) :
    s.cycle now rnd = (State.haltedBy { s with now := now, rnd := rnd } f, .fault f) := by
  rw [cycle_running hr, runCycle_some (s := { s with now := now, rnd := rnd }) hp hd, he]

/-- The cycle of a call with 16 entries in use raises StackOverflow with the fetched word and its address (R123). -/
theorem cycle_call_of_ge {s : State} {nnn : Word} (hr : s.run = .running) (hp : s.pc.toNat ≤ 0xFFE)
    (hd : decodeWord s.fetchedWord = some (.call nnn)) (hsp : 16 ≤ s.sp.val) (now : Nat) (rnd : Byte) :
    s.cycle now rnd = (State.haltedBy { s with now := now, rnd := rnd } (.stackOverflow s.fetchedWord s.pc),
      .fault (.stackOverflow s.fetchedWord s.pc)) := by
  apply cycle_of_exec_fault hr hp hd
  rw [exec_call_of_ge (s := State.afterFetch { s with now := now, rnd := rnd }) hsp, (encode_decodeWord hd).1,
    afterFetch_ia]

/-- The cycle of a return with no entry in use raises StackUnderflow with the address of the word (R121). -/
theorem cycle_ret_of_zero {s : State} (hr : s.run = .running) (hp : s.pc.toNat ≤ 0xFFE)
    (hd : decodeWord s.fetchedWord = some .ret) (hsp : s.sp = 0) (now : Nat) (rnd : Byte) :
    s.cycle now rnd = (State.haltedBy { s with now := now, rnd := rnd } (.stackUnderflow 0x00EE s.pc),
      .fault (.stackUnderflow 0x00EE s.pc)) := by
  apply cycle_of_exec_fault hr hp hd
  rw [exec_ret_of_zero (s := State.afterFetch { s with now := now, rnd := rnd }) hsp, afterFetch_ia]

/-! ### The words of families 5 and 9 (R80) -/

/-- In families 5 and 9 a low nibble other than 0 is illegal. -/
theorem decodeWord_none_of_fieldN {w : Word} (hf : family w = 0x5#4 ∨ family w = 0x9#4) (hn : fieldN w ≠ 0x0#4) :
    decodeWord w = none := by
  rcases hf with hf | hf <;> simp [decodeWord, hf, hn]

/-! ### The statements -/

/-- Settles O26: the jump is one write of the pc, and a fetch from above 0xFFE faults. -/
theorem jumpResult : Obligations.JumpResult :=
  ⟨fun _ h => decodeWord_jp h, fun nnn s => ⟨s.setPc nnn, rfl, rfl, frame_setPc s nnn, fun h => fetch_of_gt h⟩⟩

/-- Settles O27: a call pushes the pc and jumps, and with a full stack it faults in `push`; of that instruction the
halted cycle keeps the advance of the pc alone, and the fetched word is the encoding that the record names. -/
theorem callResult : Obligations.CallResult := by
  refine ⟨fun _ h => decodeWord_call h, fun nnn s => ⟨fun h => ?_, fun h => exec_call_of_ge h nnn, ?_⟩⟩
  · exact ⟨_, exec_call_of_lt h nnn, rfl, rfl, rfl, frame_withStack_setPc s _ _ nnn⟩
  · intro now rnd hr hp hd hsp
    exact ⟨_, cycle_call_of_ge hr hp hd hsp now rnd, rfl, rfl⟩

/-- Settles O28: a return takes the entry below SP into the pc, and with an empty stack it faults in `pop`; of
that instruction the halted cycle keeps the advance of the pc alone. -/
theorem returnResult : Obligations.ReturnResult := by
  have hdec : decodeWord 0x00EE#16 = some .ret := by decide
  refine ⟨hdec, fun s => ⟨fun k hk => ?_, fun h => exec_ret_of_zero h, ?_⟩⟩
  · exact ⟨_, exec_ret_of_succ hk, rfl, rfl, rfl, frame_withStack_setPc s _ _ _, fun h => fetch_of_gt h⟩
  · intro now rnd hr hp hw hsp
    exact cycle_ret_of_zero hr hp (hw ▸ hdec) hsp now rnd

/-- Settles O30: both skips are `skipIf`, which writes the pc alone, and a fetch from above 0xFFE faults. -/
theorem skipOnImmediate : Obligations.SkipOnImmediate := by
  refine ⟨fun _ h => decodeWord_seByte h, fun _ h => decodeWord_sneByte h, fun x nn s => ⟨?_, ?_⟩⟩
  · exact ⟨s.skipIf (s.reg x == nn), rfl, by simp, frame_skipIf s _, fetch_of_gt⟩
  · exact ⟨s.skipIf (s.reg x != nn), rfl, by simp, frame_skipIf s _, fetch_of_gt⟩

/-- Settles O31: both skips are `skipIf`, which writes the pc alone; a nonzero low nibble is illegal in their
families. -/
theorem skipOnRegister : Obligations.SkipOnRegister := by
  refine ⟨fun _ h => decodeWord_seReg h, fun _ h => decodeWord_sneReg h,
    fun _ hf hn => decodeWord_none_of_fieldN hf hn, fun x y s => ⟨?_, ?_⟩⟩
  · exact ⟨s.skipIf (s.reg x == s.reg y), rfl, by simp, frame_skipIf s _⟩
  · exact ⟨s.skipIf (s.reg x != s.reg y), rfl, by simp, frame_skipIf s _⟩

end Sys2Proof.Machine

/-! PROOFS. Register and ALU instructions (42_register_alu.md): the loads and the immediate add are one write of V[X]. -/

namespace Sys2Proof.Machine

/-- Settles O34: each of the three is one `setReg` of X, and a sum of bytes is the sum mod 256. -/
theorem loadAndAddImmediate : Obligations.LoadAndAddImmediate := by
  refine ⟨fun _ h => decodeWord_ldByte h, fun _ h => decodeWord_addByte h, fun _ h => decodeWord_ldReg h,
    fun x y nn s => ⟨?_, ?_, ?_⟩⟩
  · exact ⟨s.setReg x nn, rfl, s.reg_setReg_self x nn, frame_setReg s x nn⟩
  · have hsum : ((s.setReg x (s.reg x + nn)).reg x).toNat = ((s.reg x).toNat + nn.toNat) % 256 := by
      rw [State.reg_setReg_self, BitVec.toNat_add]
    exact ⟨s.setReg x (s.reg x + nn), rfl, hsum, frame_setReg s x _⟩
  · exact ⟨s.setReg x (s.reg y), rfl, s.reg_setReg_self x _, frame_setReg s x _⟩

end Sys2Proof.Machine

/-! PROOFS. Index register and memory (43_index_memory.md): the two instructions that set I without reading it. -/

namespace Sys2Proof.Machine

/-- The address that FX29 computes: the high nibble of the byte is ignored (R174). -/
theorem glyphAddress_lowNibble_toNat (b : Byte) : (glyphAddress (lowNibble b)).toNat = 0x050 + 5 * (b.toNat % 16) := by
  rw [glyphAddress_toNat, lowNibble_val]

/-- The last glyph begins at 0x09B. -/
theorem glyphAddress_le (k : Fin 16) : (glyphAddress k).toNat ≤ 0x09B := by
  rw [glyphAddress_toNat]
  omega

/-- Settles O40: both are one `setIndex`, of NNN or of the address of a glyph. -/
theorem setIndexResult : Obligations.SetIndexResult := by
  refine ⟨fun _ h => decodeWord_ldIndex h, fun _ h => decodeWord_ldFont h, fun nnn s => ?_, fun x s => ?_⟩
  · exact ⟨s.setIndex nnn, rfl, s.setIndex_i nnn, frame_setIndex s nnn⟩
  · exact ⟨s.setIndex (glyphAddress (lowNibble (s.reg x))), rfl, glyphAddress_lowNibble_toNat _, glyphAddress_le _,
      frame_setIndex s _⟩

end Sys2Proof.Machine

/-! PROOFS. The display (44_display.md): 00E0 is one `clearDisplay`. -/

namespace Sys2Proof.Machine

theorem exec_cls (s : State) : exec .cls s = .next s.clearDisplay := rfl

/-- Settles O47: 00E0 answers with the cleared display, and clearing writes the cells alone. -/
theorem clearScreenResult : Obligations.ClearScreenResult := by
  refine ⟨decodeWord_cls (by decide), fun s => ⟨s.clearDisplay, exec_cls s, fun x y => ?_, frame_clearDisplay s⟩⟩
  exact s.cell_clearDisplay x y

end Sys2Proof.Machine

/-! PROOFS. Keypad and timers (45_keypad_timers.md): EX9E and EXA1 skip on the key that the low nibble of V[X] names, and
FX07 is one write of V[X]. -/

namespace Sys2Proof.Machine

/-- The masked index of a key (R201, R202) is the key of the low nibble. -/
theorem keyDown_lowNibble {k : Fin 16} {b : Byte} (h : k.val = b.toNat % 16) (s : State) :
    s.keyDown (lowNibble b) = s.key[k] := by
  have hk : lowNibble b = k := Fin.ext ((lowNibble_val b).trans h.symm)
  rw [hk]
  rfl

theorem exec_skp {x : Reg} {s : State} {k : Fin 16} (h : k.val = (s.reg x).toNat % 16) :
    exec (.skp x) s = .next (s.skipIf s.key[k]) := by
  rw [← keyDown_lowNibble h]
  rfl

theorem exec_sknp {x : Reg} {s : State} {k : Fin 16} (h : k.val = (s.reg x).toNat % 16) :
    exec (.sknp x) s = .next (s.skipIf !s.key[k]) := by
  rw [← keyDown_lowNibble h]
  rfl

theorem exec_ldFromDelay (x : Reg) (s : State) : exec (.ldFromDelay x) s = .next (s.setReg x s.dt) := rfl

/-- Settles O32: both skips are `skipIf` on the key of the low nibble, which writes the pc alone. -/
theorem skipOnKey : Obligations.SkipOnKey := by
  refine ⟨fun _ h => decodeWord_skp h, fun _ h => decodeWord_sknp h, fun x s k hk => ⟨?_, ?_⟩⟩
  · exact ⟨s.skipIf s.key[k], exec_skp hk, s.skipIf_pc _, frame_skipIf s _⟩
  · have hpc : (s.skipIf !s.key[k]).pc = if s.key[k] = true then s.pc else s.pc + 2 := by
      cases hkey : s.key[k] <;> simp
    exact ⟨s.skipIf !s.key[k], exec_sknp hk, hpc, frame_skipIf s _⟩

/-- Settles O53: FX07 is one `setReg` of X with DT, which writes no timer. -/
theorem readDelayTimerResult : Obligations.ReadDelayTimerResult :=
  ⟨fun _ h => decodeWord_ldFromDelay h, fun x s =>
    ⟨s.setReg x s.dt, exec_ldFromDelay x s, s.reg_setReg_self x s.dt, frame_setReg s x s.dt⟩⟩

end Sys2Proof.Machine

/-! PROOFS. Construction (70_reset_and_hazards.md R250 to R253): the bytes of the image in a constructed core, and the
zero word that a core without an image fetches first. -/

namespace Sys2Proof.Machine

/-- The font ends at 0x09F, and no other address reads as nonzero before it is written (R41, R55). -/
theorem fresh_readByte_of_ge (cfg : Config) (t0 : Nat) {a : Nat} (h : 0x0A0 ≤ a) :
    (State.fresh cfg t0).readByte a = 0 := by
  have hfont : ¬(0x050 ≤ a ∧ a < 0x0A0) := by omega
  exact dif_neg hfont

/-- What a constructed core reads at and above 0x200: the image, and 0 above it (R252). -/
theorem construct_readByte {cfg : Config} {image : List Byte} {t0 : Nat} {s : State}
    (h : construct cfg (some image) t0 = .ok s) {a : Nat} (ha : 0x200 ≤ a) :
    s.readByte a = if hi : a < 0x200 + image.length then image[a - 0x200]'(by omega) else 0 := by
  obtain ⟨l, hl, hlen, rfl⟩ := construct_ok h
  cases hl
  have hfits : 0x200 + image.length ≤ 0x1000 := by omega
  rw [storeBytes_readByte (fresh_memOk cfg t0) hfits, fresh_readByte_of_ge cfg t0 (by omega)]
  simp only [ha, true_and]

theorem construct_empty (cfg : Config) (t0 : Nat) : construct cfg (some []) t0 = .ok (State.fresh cfg t0) := rfl

/-- No program is loaded, so the word at 0x200 is zero. -/
theorem fresh_fetchedWord (cfg : Config) (t0 : Nat) : (State.fresh cfg t0).fetchedWord = 0x0000 := by
  have hhigh : (State.fresh cfg t0).readByte 0x200 = 0 := fresh_readByte_of_ge cfg t0 (by decide)
  have hlow : (State.fresh cfg t0).readByte 0x201 = 0 := fresh_readByte_of_ge cfg t0 (by decide)
  calc (State.fresh cfg t0).fetchedWord
    _ = wordOfBytes ((State.fresh cfg t0).readByte 0x200) ((State.fresh cfg t0).readByte 0x201) := rfl
    _ = 0x0000 := by rw [hhigh, hlow]; rfl

/-- The zero word is the encoding of no instruction (R86), and the pc after reset is in fetch range. -/
theorem step_fresh (cfg : Config) (t0 : Nat) :
    step (State.fresh cfg t0) = .fault (.unimplementedOpcode 0x0000 0x200) := by
  have hword := fresh_fetchedWord cfg t0
  have hpc : (State.fresh cfg t0).pc.toNat ≤ 0xFFE := (by decide : (0x200 : Word).toNat ≤ 0xFFE)
  have hillegal : decodeWord (State.fresh cfg t0).fetchedWord = none := by
    rw [hword]
    decide
  have hstep := (illegalWordFaults (State.fresh cfg t0) rfl hpc hillegal).1
  rwa [hword] at hstep

/-- Settles O21: a constructed core is the fresh state with the image stored, and the fresh state itself, which an empty
image leaves, faults on the zero word. -/
theorem imageIsLoadedVerbatim : Obligations.ImageIsLoadedVerbatim := by
  refine ⟨fun cfg image t0 s h => ⟨fun k hk => ?_, fun a ha => ?_⟩, fun cfg t0 => ?_⟩
  · rw [construct_readByte h (by omega), dif_pos (by omega)]
    simp
  · rw [construct_readByte h (by omega), dif_neg (by omega)]
  · exact ⟨State.fresh cfg t0, construct_empty cfg t0, step_fresh cfg t0⟩

end Sys2Proof.Machine

/-! PROOFS. Encoding (30_encoding.md): the round trip of R70 to R77, and which words are illegal (R79 to R83). -/

namespace Sys2Proof

/-! ### Decode after encode -/

/-- The round trip of one word, which `Laws.RoundTrip` says constructor by constructor. -/
theorem decodeWord_encode : ∀ i : Instr, Laws.RoundTrip.Statement i
  | .cls => Laws.RoundTrip.cls
  | .ret => Laws.RoundTrip.ret
  | .jp nnn => Laws.RoundTrip.jp nnn
  | .call nnn => Laws.RoundTrip.call nnn
  | .seByte x nn => Laws.RoundTrip.seByte x nn
  | .sneByte x nn => Laws.RoundTrip.sneByte x nn
  | .seReg x y => Laws.RoundTrip.seReg x y
  | .ldByte x nn => Laws.RoundTrip.ldByte x nn
  | .addByte x nn => Laws.RoundTrip.addByte x nn
  | .ldReg x y => Laws.RoundTrip.ldReg x y
  | .orReg x y => Laws.RoundTrip.orReg x y
  | .andReg x y => Laws.RoundTrip.andReg x y
  | .xorReg x y => Laws.RoundTrip.xorReg x y
  | .addReg x y => Laws.RoundTrip.addReg x y
  | .sub x y => Laws.RoundTrip.sub x y
  | .shr x y => Laws.RoundTrip.shr x y
  | .subn x y => Laws.RoundTrip.subn x y
  | .shl x y => Laws.RoundTrip.shl x y
  | .sneReg x y => Laws.RoundTrip.sneReg x y
  | .ldIndex nnn => Laws.RoundTrip.ldIndex nnn
  | .jpOffset nnn => Laws.RoundTrip.jpOffset nnn
  | .rnd x nn => Laws.RoundTrip.rnd x nn
  | .drw x y n => Laws.RoundTrip.drw x y n
  | .skp x => Laws.RoundTrip.skp x
  | .sknp x => Laws.RoundTrip.sknp x
  | .ldFromDelay x => Laws.RoundTrip.ldFromDelay x
  | .ldKey x => Laws.RoundTrip.ldKey x
  | .ldDelay x => Laws.RoundTrip.ldDelay x
  | .ldSound x => Laws.RoundTrip.ldSound x
  | .addIndex x => Laws.RoundTrip.addIndex x
  | .ldFont x => Laws.RoundTrip.ldFont x
  | .ldBcd x => Laws.RoundTrip.ldBcd x
  | .storeRegs x => Laws.RoundTrip.storeRegs x
  | .loadRegs x => Laws.RoundTrip.loadRegs x

/-- Settles O3: the two bytes make up the encoded word, which decodes to its instruction. -/
theorem decodeOfEncode : Obligations.DecodeOfEncode := by
  intro i rest hwf
  change decode (highByte (encode i) :: lowByte (encode i) :: rest) = _
  rw [decode_two, wordOfBytes_bytes, decodeWord_encode i hwf]

/-! ### Encode after decode -/

/-- Bytes that decode begin with the two bytes of a legal word. -/
theorem decode_ok {bytes rest : List Byte} {i : Instr} (h : decode bytes = .ok (i, rest)) :
    ∃ hi lo, bytes = hi :: lo :: rest ∧ decodeWord (wordOfBytes hi lo) = some i := by
  match bytes with
  | [] | [_] => cases h
  | hi :: lo :: tail =>
    rw [decode_two] at h
    cases hd : decodeWord (wordOfBytes hi lo) <;> rw [hd] at h <;> cases h
    exact ⟨hi, lo, rfl, hd⟩

/-- Settles O4: the word of the first two bytes is the encoding of what it decodes to. -/
theorem encodeOfDecode : Obligations.EncodeOfDecode := by
  intro bytes rest i h
  obtain ⟨hi, lo, rfl, hd⟩ := decode_ok h
  obtain ⟨he, hwf⟩ := encode_decodeWord hd
  exact ⟨by simp [encodeBytes, he], hwf⟩

/-! ### The illegal words -/

theorem ite_some_eq_none {α : Type} {p : Prop} [Decidable p] {a : α} {r : Option α} :
    (if p then some a else r) = none ↔ ¬p ∧ r = none := by
  split <;> simp [*]

theorem decodeFamily8_eq_none {w : Word} :
    decodeFamily8 w = none ↔ fieldN w ∈ [0x8#4, 0x9#4, 0xA#4, 0xB#4, 0xC#4, 0xD#4, 0xF#4] := by
  simp only [decodeFamily8, ite_some_eq_none]
  generalize fieldN w = n
  revert n
  decide

theorem decodeFamilyE_eq_none {w : Word} : decodeFamilyE w = none ↔ fieldNN w ∉ [0x9E#8, 0xA1#8] := by
  simp [decodeFamilyE, ite_some_eq_none]

theorem decodeFamilyF_eq_none {w : Word} :
    decodeFamilyF w = none ↔
      fieldNN w ∉ [0x07#8, 0x0A#8, 0x15#8, 0x18#8, 0x1E#8, 0x29#8, 0x33#8, 0x55#8, 0x65#8] := by
  simp [decodeFamilyF, ite_some_eq_none]

theorem decodeWord_eq_none_of_family0 {w : Word} (hf : family w = 0x0#4) :
    decodeWord w = none ↔ w ≠ 0x00E0#16 ∧ w ≠ 0x00EE#16 := by
  simp [decodeWord, hf, ite_some_eq_none]

theorem decodeWord_eq_none_of_family5_or_9 {w : Word} (hf : family w = 0x5#4 ∨ family w = 0x9#4) :
    decodeWord w = none ↔ fieldN w ≠ 0x0#4 := by
  rcases hf with hf | hf <;> simp [decodeWord, hf]

theorem decodeWord_of_family8 {w : Word} (hf : family w = 0x8#4) : decodeWord w = decodeFamily8 w := by
  simp [decodeWord, hf]

theorem decodeWord_of_familyE {w : Word} (hf : family w = 0xE#4) : decodeWord w = decodeFamilyE w := by
  simp [decodeWord, hf]

theorem decodeWord_of_familyF {w : Word} (hf : family w = 0xF#4) : decodeWord w = decodeFamilyF w := by
  simp [decodeWord, hf]

/-- The ten families in which every word is legal (R78). -/
def legalFamilies : List (BitVec 4) := [0x1#4, 0x2#4, 0x3#4, 0x4#4, 0x6#4, 0x7#4, 0xA#4, 0xB#4, 0xC#4, 0xD#4]

theorem decodeWord_ne_none_of_legalFamilies {w : Word} (hf : family w ∈ legalFamilies) : decodeWord w ≠ none := by
  simp only [legalFamilies, List.mem_cons, List.not_mem_nil, or_false] at hf
  rcases hf with hf | hf | hf | hf | hf | hf | hf | hf | hf | hf <;> simp [decodeWord, hf]

/-- A family has illegal words, or it is one of the ten that have none. -/
theorem family_cases (w : Word) :
    family w = 0x0#4 ∨ (family w = 0x5#4 ∨ family w = 0x9#4) ∨ family w = 0x8#4 ∨ family w = 0xE#4 ∨
      family w = 0xF#4 ∨ family w ∈ legalFamilies := by
  generalize family w = f
  revert f
  decide

/-- Settles O5: family by family, each with the test that its branch of the decoder makes. -/
theorem illegalWordsByFamily : Obligations.IllegalWordsByFamily := by
  intro w
  rcases family_cases w with hf | hf | hf | hf | hf | hf
  · simp [decodeWord_eq_none_of_family0 hf, hf]
  · rw [decodeWord_eq_none_of_family5_or_9 hf]
    rcases hf with hf | hf <;> simp [hf]
  · simp [decodeWord_of_family8 hf, decodeFamily8_eq_none, hf]
  · simp [decodeWord_of_familyE hf, decodeFamilyE_eq_none, hf]
  · simp [decodeWord_of_familyF hf, decodeFamilyF_eq_none, hf]
  · refine iff_of_false (decodeWord_ne_none_of_legalFamilies hf) ?_
    rintro (⟨h, -⟩ | ⟨h | h, -⟩ | ⟨h, -⟩ | ⟨h, -⟩ | ⟨h, -⟩) <;> exact absurd hf (by rw [h]; decide)

/-- Settles O1, one closed evaluation of the decoder for each word. -/
theorem sampleWordsDecode : Obligations.SampleWordsDecode := by
  unfold Obligations.SampleWordsDecode
  decide

end Sys2Proof

/-! PROOFS. Over all instructions: what the ones that branch answer, the faults of each (60_exceptions.md R230, R235),
and what each one writes (10_state.md R22 to R35, 20_memory.md R51). -/

namespace Sys2Proof.Machine

/-! ### Plain instructions, and the ones that check or branch -/

/-- An outcome has one next state. -/
theorem next_unique {r : Result} {t u : State} (hu : r = .next u) (ht : r = .next t) : t = u :=
  Host.Outcome.next.inj (ht.symm.trans hu)

theorem exec_call_next {nnn : Word} {s t : State} (h : exec (.call nnn) s = .next t) :
    ∃ hsp : s.sp.val < 16,
      t = (s.withStack (s.stack.set s.sp.val s.pc hsp) ⟨s.sp.val + 1, by omega⟩).setPc nnn := by
  rcases Nat.lt_or_ge s.sp.val 16 with hsp | hsp
  · exact ⟨hsp, next_unique (exec_call_of_lt hsp nnn) h⟩
  · rw [exec_call_of_ge hsp] at h; cases h

theorem exec_ret_next {s t : State} (h : exec .ret s = .next t) :
    ∃ k : Fin 16, s.sp.val = k.val + 1 ∧ t = (s.withStack s.stack ⟨k.val, by omega⟩).setPc s.stack[k] := by
  by_cases hsp : s.sp = 0
  · rw [exec_ret_of_zero hsp] at h; cases h
  · have hpos : s.sp.val ≠ 0 := fun h0 => hsp (Fin.ext h0)
    have hk : s.sp.val = (⟨s.sp.val - 1, by omega⟩ : Fin 16).val + 1 := by simp only; omega
    exact ⟨_, hk, next_unique (exec_ret_of_succ hk) h⟩

theorem exec_ldKey_of_none {x : Reg} {s : State} (h : lowestKey s = none) :
    exec (.ldKey x) s = .next (s.setPc (s.pc - 2)) := by
  simp [exec, execLdKey, h]

theorem exec_ldKey_of_some {x : Reg} {s : State} {k : Fin 16} (h : lowestKey s = some k) :
    exec (.ldKey x) s = .next (s.setReg x (BitVec.ofNat 8 k.val)) := by
  simp [exec, execLdKey, h]

/-- The three digits of V[X] stored from I on (R175). -/
def State.storeBcd (s : State) (x : Reg) : State :=
  ((s.writeByte s.i.toNat (bcdHundreds (s.reg x))).writeByte (s.i.toNat + 1) (bcdTens (s.reg x))).writeByte
    (s.i.toNat + 2) (bcdUnits (s.reg x))

theorem exec_storeRegs (x : Reg) (s : State) :
    exec (.storeRegs x) s =
      rangeCheck (encode (.storeRegs x)) x.val s (.next ((storeEach s.i.toNat (regsUpTo x) s).bumpIndex x)) := rfl

theorem exec_loadRegs (x : Reg) (s : State) :
    exec (.loadRegs x) s =
      rangeCheck (encode (.loadRegs x)) x.val s (.next ((loadEach s.i.toNat (regsUpTo x) s).bumpIndex x)) := rfl

/-- The sprite of DXYN, drawn where its operands say (R192). -/
def State.drawn (s : State) (x y : Reg) (n : Nat) : State :=
  drawSprite (spriteColumn x s) (spriteRow y s) (spriteRows y n s) s

theorem exec_drw (x y : Reg) (n : Nat) (s : State) :
    exec (.drw x y n) s =
      if spriteRows y n s = 0 then .next (s.drawn x y n)
      else rangeCheck (encode (.drw x y n)) (spriteRows y n s - 1) s (.next (s.drawn x y n)) := rfl

theorem exec_drw_of_inRange {x y : Reg} {n : Nat} {s : State} (h : drawInRange y n s) :
    exec (.drw x y n) s = .next (s.drawn x y n) := by
  rw [exec_drw]
  split
  · rfl
  · next h0 => exact rangeCheck_of_le (h.resolve_left h0) _

theorem exec_drw_of_not_inRange {x y : Reg} {n : Nat} {s : State} (h : ¬drawInRange y n s) :
    exec (.drw x y n) s = .fault (.addressOutOfRange (encode (.drw x y n)) s.ia (max s.i.toNat 0x1000)) := by
  obtain ⟨h0, hgt⟩ := not_or.1 h
  rw [exec_drw, if_neg h0]
  exact rangeCheck_of_gt (Nat.lt_of_not_le hgt) _

theorem exec_drw_next {x y : Reg} {n : Nat} {s t : State} (h : exec (.drw x y n) s = .next t) :
    drawInRange y n s ∧ t = s.drawn x y n := by
  by_cases hr : drawInRange y n s
  · exact ⟨hr, next_unique (exec_drw_of_inRange hr) h⟩
  · rw [exec_drw_of_not_inRange hr] at h; cases h

/-! ### Every instruction answers a next state or its own fault -/

/-- A range check that guards one next state. -/
theorem rangeCheck_next_or_fault (w : Word) (m : Nat) (s u : State) :
    (∃ t, rangeCheck w m s (.next u) = .next t) ∨
      rangeCheck w m s (.next u) = .fault (.addressOutOfRange w s.ia (max s.i.toNat 0x1000)) := by
  rcases rangeCheck_cases w m s (.next u) with ⟨-, h⟩ | ⟨-, h⟩
  · exact .inl ⟨u, h⟩
  · exact .inr h

theorem exec_next_or_ownFault (i : Instr) (s : State) :
    (∃ t, exec i s = .next t) ∨ ∃ f, exec i s = .fault f ∧ isOwnFault i s f := by
  cases i with
  | call nnn =>
    rcases Nat.lt_or_ge s.sp.val 16 with h | h
    · exact .inl ⟨_, exec_call_of_lt h nnn⟩
    · exact .inr ⟨_, exec_call_of_ge h nnn, rfl⟩
  | ret =>
    by_cases h : s.sp.val = 0
    · exact .inr ⟨_, (exec_ret s).trans (pop_of_zero h _), rfl⟩
    · exact .inl ⟨_, (exec_ret s).trans (pop_of_pos h _)⟩
  | drw x y n =>
    by_cases h : drawInRange y n s
    · exact .inl ⟨_, exec_drw_of_inRange h⟩
    · exact .inr ⟨_, exec_drw_of_not_inRange h, rfl⟩
  | ldBcd x => exact (rangeCheck_next_or_fault _ _ s _).imp_right fun h => ⟨_, h, rfl⟩
  | storeRegs x => exact (rangeCheck_next_or_fault _ _ s _).imp_right fun h => ⟨_, h, rfl⟩
  | loadRegs x => exact (rangeCheck_next_or_fault _ _ s _).imp_right fun h => ⟨_, h, rfl⟩
  | ldKey x =>
    cases h : lowestKey s with
    | none => exact .inl ⟨_, exec_ldKey_of_none h⟩
    | some k => exact .inl ⟨_, exec_ldKey_of_some h⟩
  | cls | jp | seByte | sneByte | seReg | sneReg | ldByte | addByte | ldReg | orReg | andReg | xorReg | addReg | sub
  | shr | subn | shl | ldIndex | jpOffset | rnd | skp | sknp | ldFromDelay | ldDelay | ldSound | addIndex | ldFont =>
    exact .inl ⟨_, rfl⟩

/-- Settles O11: a next state is neither a refusal nor a fault, and the fault that is raised is the instruction's own. -/
theorem instructionsRaiseOnlyTheirOwnFault : Obligations.InstructionsRaiseOnlyTheirOwnFault := by
  intro i s
  rcases exec_next_or_ownFault i s with ⟨t, h⟩ | ⟨f, h, hf⟩
  · simp [h]
  · simp [h, hf]

/-! ### Frames -/

theorem frame_storeBcd (s : State) (x : Reg) : Frame [] [.memory] s (s.storeBcd x) :=
  ((frame_writeByte s _ _).trans ((frame_writeByte _ _ _).trans (frame_writeByte _ _ _))).mono (by simp) (by simp)

theorem frame_storeEach_bumpIndex (s : State) (base : Nat) (x : Reg) :
    Frame [] (if s.cfg.quirkIndexInc = .yes then [.memory, .index] else [.memory]) s
      ((storeEach base (regsUpTo x) s).bumpIndex x) := by
  have hcfg : (storeEach base (regsUpTo x) s).cfg = s.cfg := by rw [storeEach_eq]
  have h := (frame_storeEach base (regsUpTo x) s).trans (frame_bumpIndex _ x)
  rw [hcfg] at h
  refine h.mono (by simp) ?_
  split <;> simp

theorem frame_loadEach_bumpIndex (s : State) (base : Nat) (x : Reg) :
    Frame (regsUpTo x) (if s.cfg.quirkIndexInc = .yes then [.index] else []) s
      ((loadEach base (regsUpTo x) s).bumpIndex x) := by
  have hcfg : (loadEach base (regsUpTo x) s).cfg = s.cfg := by rw [loadEach_eq]
  have h := (frame_loadEach base (regsUpTo x) s).trans (frame_bumpIndex _ x)
  rw [hcfg] at h
  exact h.mono (by simp) (by simp)

/-- Each instruction's frame is that of the operations it is made of. -/
theorem exec_frame {i : Instr} {s t : State} (h : exec i s = .next t) :
    Frame (regsWritten i s) (partsWritten i s) s t := by
  cases i with
  | call nnn =>
    obtain ⟨-, rfl⟩ := exec_call_next h
    exact frame_withStack_setPc s _ _ nnn
  | ret =>
    obtain ⟨k, -, rfl⟩ := exec_ret_next h
    exact frame_withStack_setPc s _ _ _
  | drw x y n =>
    obtain ⟨-, rfl⟩ := exec_drw_next h
    exact frame_drawSprite _ _ _ s
  | ldBcd x => cases (rangeCheck_next h).2; exact frame_storeBcd s x
  | storeRegs x => cases (rangeCheck_next h).2; exact frame_storeEach_bumpIndex s _ x
  | loadRegs x => cases (rangeCheck_next h).2; exact frame_loadEach_bumpIndex s _ x
  | ldKey x =>
    cases hk : lowestKey s with
    | none =>
      obtain rfl := next_unique (exec_ldKey_of_none hk) h
      simpa [regsWritten, partsWritten, hk] using frame_setPc s (s.pc - 2)
    | some k =>
      obtain rfl := next_unique (exec_ldKey_of_some hk) h
      simpa [regsWritten, partsWritten, hk] using frame_setReg s x _
  | cls => cases h; exact frame_clearDisplay s
  | jp | jpOffset => cases h; exact frame_setPc s _
  | seByte | sneByte | seReg | sneReg | skp | sknp => cases h; exact frame_skipIf s _
  | ldByte | addByte | ldReg | orReg | andReg | xorReg | rnd | ldFromDelay => cases h; exact frame_setReg s _ _
  | addReg | sub | shr | subn | shl => cases h; exact frame_setResultAndFlag s _ _ _
  | ldIndex | addIndex | ldFont => cases h; exact frame_setIndex s _
  | ldDelay => cases h; exact frame_setDelay s _
  | ldSound => cases h; exact frame_setSound s _

/-! ### The parts that an instruction leaves -/

/-- An instruction that stores no byte does not write memory at all. -/
theorem memory_notMem_partsWritten {i : Instr} (h : bytesStored i = 0) (s : State) :
    Part.memory ∉ partsWritten i s := by
  cases i with
  | ldBcd x | storeRegs x => cases h
  | ldKey x | loadRegs x => simp only [partsWritten]; split <;> simp
  | _ => simp [partsWritten]

theorem stack_notMem_partsWritten {i : Instr} (hret : i ≠ .ret) (hcall : ∀ nnn, i ≠ .call nnn) (s : State) :
    Part.stack ∉ partsWritten i s := by
  cases i with
  | ret => exact absurd rfl hret
  | call nnn => exact absurd rfl (hcall nnn)
  | ldKey x | storeRegs x | loadRegs x => simp only [partsWritten]; split <;> simp
  | _ => simp [partsWritten]

theorem display_notMem_partsWritten {i : Instr} (hcls : i ≠ .cls) (hdrw : ∀ x y n, i ≠ .drw x y n) (s : State) :
    Part.display ∉ partsWritten i s := by
  cases i with
  | cls => exact absurd rfl hcls
  | drw x y n => exact absurd rfl (hdrw x y n)
  | ldKey x | storeRegs x | loadRegs x => simp only [partsWritten]; split <;> simp
  | _ => simp [partsWritten]

/-- Settles O58: where the frame does not name the display, every cell is as before. -/
theorem onlyClearAndDrawWriteTheDisplay : Obligations.OnlyClearAndDrawWriteTheDisplay :=
  fun _ s _ h hcls hdrw => State.disp_ext ((exec_frame h).display (display_notMem_partsWritten hcls hdrw s))

/-! ### The bytes, the stack entries and the cells that an instruction leaves -/

theorem sameMemoryBut_storeBcd (s : State) (x : Reg) : SameMemoryBut s.i.toNat 3 s (s.storeBcd x) := by
  intro a ha
  rw [State.storeBcd, State.readByte_writeByte_of_ne _ _ (by omega), State.readByte_writeByte_of_ne _ _ (by omega),
    State.readByte_writeByte_of_ne _ _ (by omega)]

theorem sameMemoryBut_storeEach (s : State) (base : Nat) (x : Reg) :
    SameMemoryBut base (x.val + 1) s (storeEach base (regsUpTo x) s) := by
  intro a ha
  refine storeEach_readByte_of_ne (fun r hr => ?_) s
  have hrx : r.val ≤ x.val := mem_regsUpTo.1 hr
  omega

theorem exec_sameMemoryBut {i : Instr} {s t : State} (h : exec i s = .next t) :
    SameMemoryBut s.i.toNat (bytesStored i) s t := by
  by_cases hb : bytesStored i = 0
  · exact fun a _ => (exec_frame h).memory (memory_notMem_partsWritten hb s) a
  · cases i with
    | ldBcd x => cases (rangeCheck_next h).2; exact sameMemoryBut_storeBcd s x
    | storeRegs x =>
      cases (rangeCheck_next h).2
      intro a ha
      rw [State.readByte_bumpIndex]
      exact sameMemoryBut_storeEach s _ x a ha
    | _ => exact absurd rfl hb

theorem exec_stack {i : Instr} {s t : State} (h : exec i s = .next t) {k : Fin 16}
    (hk : stackEntryWritten i s k = false) : t.stack[k] = s.stack[k] := by
  by_cases hret : i = .ret
  · subst hret
    obtain ⟨_, -, rfl⟩ := exec_ret_next h
    rfl
  by_cases hcall : ∃ nnn, i = .call nnn
  · obtain ⟨nnn, rfl⟩ := hcall
    obtain ⟨hsp, rfl⟩ := exec_call_next h
    have hne : s.sp.val ≠ k.val := by simpa [stackEntryWritten, eq_comm] using hk
    exact Vector.getElem_set_ne hsp k.isLt hne
  · rw [((exec_frame h).stack (stack_notMem_partsWritten hret (not_exists.1 hcall) s)).2]

/-- A sprite leaves the cells it does not cover. -/
theorem cell_drawn_of_not_covered {x y : Reg} {n : Nat} {s : State} {cx : Fin 64} {cy : Fin 32}
    (h : drawCovers x y n s cx cy = false) : (s.drawn x y n).cell cx cy = s.cell cx cy :=
  (flipped_drawSprite _ _ _ s).off cx cy (Bool.eq_false_iff.1 h)

theorem exec_cell {i : Instr} {s t : State} (h : exec i s = .next t) {cx : Fin 64} {cy : Fin 32}
    (hc : cellWritten i s cx cy = false) : t.cell cx cy = s.cell cx cy := by
  by_cases hcls : i = .cls
  · subst hcls; cases hc
  by_cases hdrw : ∃ x y n, i = .drw x y n
  · obtain ⟨x, y, n, rfl⟩ := hdrw
    obtain ⟨-, rfl⟩ := exec_drw_next h
    exact cell_drawn_of_not_covered hc
  · have hno : ∀ x y n, i ≠ .drw x y n := fun x y n hi => hdrw ⟨x, y, n, hi⟩
    exact (exec_frame h).display (display_notMem_partsWritten hcls hno s) cx cy

/-- Settles O55: the frame names the parts, and inside memory, the stack and the display the writing instructions reach
only the bytes, the entry and the cells that the model lists. -/
theorem everyInstructionKeepsItsFrame : Obligations.EveryInstructionKeepsItsFrame := by
  intro i s t h
  refine ⟨exec_frame h, exec_sameMemoryBut h, fun k hk => exec_stack h hk, ?_, ?_, fun cx cy hc => exec_cell h hc⟩
  · rintro nnn rfl
    obtain ⟨-, rfl⟩ := exec_call_next h
    rfl
  · rintro rfl
    obtain ⟨k, hk, rfl⟩ := exec_ret_next h
    exact hk.symm

/-! ### The pc (10_state.md R24) -/

theorem State.ia_add_two (s : State) : s.ia + 2 = s.pc := by
  rw [State.ia, BitVec.sub_add_cancel]

theorem State.ia_add_four (s : State) : s.ia + 4 = s.pc + 2 := by
  rw [← s.ia_add_two, BitVec.add_assoc]
  rfl

theorem skipIf_pc_ia (s : State) (c : Bool) : (s.skipIf c).pc = if c then s.ia + 4 else s.ia + 2 := by
  rw [s.skipIf_pc, s.ia_add_four, s.ia_add_two]

theorem skipIf_not_pc_ia (s : State) (c : Bool) : (s.skipIf !c).pc = if c then s.ia + 2 else s.ia + 4 := by
  rw [skipIf_pc_ia]
  cases c <;> rfl

/-- An instruction whose frame leaves the pc leaves it at ia + 2. -/
theorem pc_eq_ia_add_two {i : Instr} {s t : State} (h : exec i s = .next t) (hp : Part.pc ∉ partsWritten i s) :
    t.pc = s.ia + 2 :=
  ((exec_frame h).pc hp).trans s.ia_add_two.symm

theorem jumpBase_original {s : State} (h : s.cfg.quirkJump = .original) (nnn : Word) : jumpBase nnn s = s.reg 0 := by
  simp only [jumpBase, h]

theorem jumpBase_superchip {s : State} (h : s.cfg.quirkJump = .superchip) (nnn : Word) :
    jumpBase nnn s = s.reg (offsetReg nnn) := by
  simp only [jumpBase, h]

/-- The base of the jump (R131), as the pc table and as the operand form give it. -/
theorem pcAfter_jpOffset (nnn : Word) (s : State) : pcAfter (.jpOffset nnn) s = nnn + zext16 (jumpBase nnn s) := by
  cases h : s.cfg.quirkJump with
  | original => simp only [pcAfter, h, jumpBase_original h]
  | superchip => simp only [pcAfter, h, jumpBase_superchip h]

theorem lowestKey_ne_none {s : State} : lowestKey s ≠ none ↔ ∃ k : Fin 16, s.key[k] = true := by
  simp [lowestKey_eq_none]

/-- Settles O56, row by row of the table: the control transfers write their target, the skips test as their rows do, and
every other instruction leaves the pc of its fetch. -/
theorem pcAfterExecute : Obligations.PcAfterExecute := by
  intro i s t h
  cases i with
  | call nnn =>
    obtain ⟨-, rfl⟩ := exec_call_next h
    rfl
  | ret =>
    obtain ⟨k, hk, rfl⟩ := exec_ret_next h
    simp [pcAfter, hk]
  | jp nnn => cases h; rfl
  | jpOffset nnn =>
    cases h
    rw [State.setPc_pc, pcAfter_jpOffset]
  | seByte x nn => cases h; exact (skipIf_pc_ia s (s.reg x == nn)).trans (by simp [pcAfter])
  | sneByte x nn => cases h; exact (skipIf_not_pc_ia s (s.reg x == nn)).trans (by simp [pcAfter])
  | seReg x y => cases h; exact (skipIf_pc_ia s (s.reg x == s.reg y)).trans (by simp [pcAfter])
  | sneReg x y => cases h; exact (skipIf_not_pc_ia s (s.reg x == s.reg y)).trans (by simp [pcAfter])
  | skp x => cases h; exact skipIf_pc_ia s _
  | sknp x => cases h; exact skipIf_not_pc_ia s _
  | ldKey x =>
    rw [pcAfter]
    cases hk : lowestKey s with
    | none =>
      obtain rfl := next_unique (exec_ldKey_of_none hk) h
      rw [if_neg fun hex => lowestKey_ne_none.2 hex hk]
      rfl
    | some k =>
      obtain rfl := next_unique (exec_ldKey_of_some hk) h
      rw [if_pos (lowestKey_ne_none.1 (by simp [hk])), State.ia_add_two]
      rfl
  | storeRegs x | loadRegs x => exact pc_eq_ia_add_two h (by simp only [partsWritten]; split <;> simp)
  | _ => exact pc_eq_ia_add_two h (by simp [partsWritten])

end Sys2Proof.Machine

/-! PROOFS. The inputs of a cycle (40_cycle_fsm.md R104, R113): only CXNN reads the random byte, and only FX15 and FX18
read the clock reading. -/

namespace Sys2Proof.Machine

/-- The state with other inputs latched for its cycle. -/
def State.withCycleInputs (s : State) (now : Nat) (rnd : Byte) : State := { s with now := now, rnd := rnd }

section
variable (now : Nat) (rnd : Byte)

/-! ### Writes and loops commute with a change of the inputs -/

theorem skipIf_withCycleInputs (s : State) (c : Bool) :
    (s.withCycleInputs now rnd).skipIf c = (s.skipIf c).withCycleInputs now rnd := by
  cases c <;> rfl

theorem bumpIndex_withCycleInputs (s : State) (x : Reg) :
    (s.withCycleInputs now rnd).bumpIndex x = (s.bumpIndex x).withCycleInputs now rnd := by
  simp only [State.bumpIndex, State.withCycleInputs]
  split <;> rfl

theorem storeEach_withCycleInputs (base : Nat) (rs : List Reg) (s : State) :
    storeEach base rs (s.withCycleInputs now rnd) = (storeEach base rs s).withCycleInputs now rnd := by
  induction rs generalizing s with
  | nil => rfl
  | cons r rs ih => exact ih (s.writeByte (base + r.val) (s.reg r))

theorem loadEach_withCycleInputs (base : Nat) (rs : List Reg) (s : State) :
    loadEach base rs (s.withCycleInputs now rnd) = (loadEach base rs s).withCycleInputs now rnd := by
  induction rs generalizing s with
  | nil => rfl
  | cons r rs ih => exact ih (s.setReg r (s.readByte (base + r.val)))

theorem drawPixel_withCycleInputs (x y : Nat) (s : State) :
    drawPixel x y (s.withCycleInputs now rnd) = (drawPixel x y s).withCycleInputs now rnd := by
  unfold drawPixel
  split <;> rfl

theorem drawColumns_withCycleInputs (b : Byte) (x0 y : Nat) (cs : List Nat) (s : State) :
    drawColumns b x0 y cs (s.withCycleInputs now rnd) = (drawColumns b x0 y cs s).withCycleInputs now rnd := by
  induction cs generalizing s with
  | nil => rfl
  | cons c cs ih =>
    rw [drawColumns, drawColumns, ← ih, drawPixel_withCycleInputs]
    split <;> rfl

theorem drawRows_withCycleInputs (x0 y0 : Nat) (rs : List Nat) (s : State) :
    drawRows x0 y0 rs (s.withCycleInputs now rnd) = (drawRows x0 y0 rs s).withCycleInputs now rnd := by
  induction rs generalizing s with
  | nil => rfl
  | cons r rs ih =>
    rw [drawRows, drawRows, ← ih, ← drawColumns_withCycleInputs]
    rfl

/-! ### Outcomes commute with a change of the inputs -/

/-- A range check reads I and the pc alone (R170), so it passes or faults as before. -/
theorem rangeCheck_withCycleInputs (w : Word) (m : Nat) (s t : State) :
    rangeCheck w m (s.withCycleInputs now rnd) (.next (t.withCycleInputs now rnd)) =
      mapNext (·.withCycleInputs now rnd) (rangeCheck w m s (.next t)) := by
  rcases rangeCheck_cases w m s (.next t) with ⟨h, e⟩ | ⟨h, e⟩
  · rw [e, rangeCheck_of_le (s := s.withCycleInputs now rnd) h]
    rfl
  · rw [e, rangeCheck_of_gt (s := s.withCycleInputs now rnd) h]
    rfl

theorem drawn_withCycleInputs (s : State) (x y : Reg) (n : Nat) :
    (s.withCycleInputs now rnd).drawn x y n = (s.drawn x y n).withCycleInputs now rnd :=
  drawRows_withCycleInputs now rnd _ _ _ (s.setReg VF 0)

/-- Instruction by instruction: one that answers after plain writes commutes by computation, and one that branches or
loops by the lemma for its operation. -/
theorem exec_withCycleInputs {i : Instr} (hrnd : ∀ x nn, i ≠ .rnd x nn) (hdelay : ∀ x, i ≠ .ldDelay x)
    (hsound : ∀ x, i ≠ .ldSound x) (s : State) :
    exec i (s.withCycleInputs now rnd) = mapNext (·.withCycleInputs now rnd) (exec i s) := by
  cases i with
  | rnd x nn => exact absurd rfl (hrnd x nn)
  | ldDelay x => exact absurd rfl (hdelay x)
  | ldSound x => exact absurd rfl (hsound x)
  | call nnn =>
    rcases Nat.lt_or_ge s.sp.val 16 with h | h
    · rw [exec_call_of_lt h, exec_call_of_lt (s := s.withCycleInputs now rnd) h]
      rfl
    · rw [exec_call_of_ge h, exec_call_of_ge (s := s.withCycleInputs now rnd) h]
      rfl
  | ret =>
    by_cases h : s.sp.val = 0
    · rw [exec_ret, exec_ret, pop_of_zero h, pop_of_zero (s := s.withCycleInputs now rnd) h]
      rfl
    · rw [exec_ret, exec_ret, pop_of_pos h, pop_of_pos (s := s.withCycleInputs now rnd) h]
      rfl
  | drw x y n =>
    rw [exec_drw, exec_drw, drawn_withCycleInputs]
    by_cases h : spriteRows y n s = 0
    · rw [if_pos h]
      exact if_pos h
    · rw [if_neg h, ← rangeCheck_withCycleInputs]
      exact if_neg h
  | ldBcd x => exact rangeCheck_withCycleInputs now rnd _ _ s (s.storeBcd x)
  | storeRegs x =>
    rw [exec_storeRegs, exec_storeRegs, ← rangeCheck_withCycleInputs, ← bumpIndex_withCycleInputs,
      ← storeEach_withCycleInputs]
    rfl
  | loadRegs x =>
    rw [exec_loadRegs, exec_loadRegs, ← rangeCheck_withCycleInputs, ← bumpIndex_withCycleInputs,
      ← loadEach_withCycleInputs]
    rfl
  | ldKey x =>
    cases h : lowestKey s with
    | none =>
      rw [exec_ldKey_of_none h, exec_ldKey_of_none (s := s.withCycleInputs now rnd) h]
      rfl
    | some k =>
      rw [exec_ldKey_of_some h, exec_ldKey_of_some (s := s.withCycleInputs now rnd) h]
      rfl
  | seByte | sneByte | seReg | sneReg | skp | sknp => exact congrArg _ (skipIf_withCycleInputs now rnd s _)
  | cls | jp | jpOffset | ldByte | addByte | ldReg | orReg | andReg | xorReg | addReg | sub | shr | subn | shl
  | ldIndex | addIndex | ldFont | ldFromDelay => rfl

end

/-- A change of the outcome that agrees with another on the outcome's own next state. -/
theorem mapNext_congr {f g : State → State} {r : Result} (h : ∀ t, r = .next t → f t = g t) :
    mapNext f r = mapNext g r := by
  cases r with
  | next t => exact congrArg _ (h t rfl)
  | fault _ | refused _ => rfl

/-- Settles O59: one input changes while the other stays as it was, which no instruction writes. -/
theorem cycleInputsMatterOnlyToTheirReaders : Obligations.CycleInputsMatterOnlyToTheirReaders := by
  refine fun i s => ⟨fun b hrnd => ?_, fun now hdelay hsound => ?_⟩
  · by_cases hdelay : ∃ x, i = .ldDelay x
    · obtain ⟨x, rfl⟩ := hdelay
      rfl
    by_cases hsound : ∃ x, i = .ldSound x
    · obtain ⟨x, rfl⟩ := hsound
      rfl
    refine (exec_withCycleInputs s.now b hrnd (not_exists.1 hdelay) (not_exists.1 hsound) s).trans ?_
    refine mapNext_congr fun t h => ?_
    obtain ⟨-, -, -, hnow, -⟩ := (exec_frame h).host
    rw [State.withCycleInputs, hnow]
  · by_cases hrnd : ∃ x nn, i = .rnd x nn
    · obtain ⟨x, nn, rfl⟩ := hrnd
      rfl
    have hno : ∀ x nn, i ≠ .rnd x nn := fun x nn hi => hrnd ⟨x, nn, hi⟩
    refine (exec_withCycleInputs now s.rnd hno hdelay hsound s).trans ?_
    refine mapNext_congr fun t h => ?_
    obtain ⟨-, -, -, -, hrnd, -⟩ := (exec_frame h).host
    rw [State.withCycleInputs, hrnd]

end Sys2Proof.Machine

/-! PROOFS. Fetch, step and faults (40_cycle_fsm.md R101 to R110, 60_exceptions.md R232, R233). -/

namespace Sys2Proof.Machine

/-! ### Fetch and step -/

/-- Settles O7: the two cases of the fetch are those of its range test, and the high byte counts 256. -/
theorem fetchFaultsExactlyOutOfRange : Obligations.FetchFaultsExactlyOutOfRange := by
  refine fun s => ⟨fun h => ⟨fetch_of_gt h, fun hr => ?_⟩, fun h => ?_⟩
  · rw [step_running hr]
    rcases runCycle_cases s.beginCycle with ⟨-, e⟩ | ⟨hle, -⟩ | ⟨hle, -⟩
    · rw [e, beginCycle_pc]
    · rw [beginCycle_pc] at hle; omega
    · rw [beginCycle_pc] at hle; omega
  · refine ⟨s.fetchedWord, s.afterFetch, fetch_of_le h, wordOfBytes_toNat _ _, rfl, ?_⟩
    rw [afterFetch_pc, BitVec.toNat_add]
    exact Nat.mod_eq_of_lt (by simp; omega)

/-- Settles O6: the waiting inputs leave the pc and the bytes there, so the cycle decodes the same instruction. -/
theorem stepRunsDecodedInstruction : Obligations.StepRunsDecodedInstruction := by
  intro s i rest hr hp hd
  obtain ⟨hi, lo, hbytes, hw⟩ := decode_ok hd
  cases hbytes
  have hrun : runCycle s.beginCycle = exec i s.beginCycle.afterFetch :=
    runCycle_some (by simpa using hp) ((congrArg decodeWord (beginCycle_fetchedWord s)).trans hw)
  refine ⟨?_, beginCycle_pc s, beginCycle_readByte s⟩
  rw [step_running hr, hrun, ← beginCycle_pc s]
  rfl

/-- Settles O12: both run the same cycle on the state with the waiting inputs latched. -/
theorem stepIsTheWaitingCycle : Obligations.StepIsTheWaitingCycle := by
  intro s t now rnd rest f hr hin
  rw [step_running hr, beginCycle_cycle hin, cycle_running (s := { s with inputs := rest }) hr]
  cases runCycle { s with inputs := rest, now := now, rnd := rnd } <;> simp

/-! ### Faults -/

/-- An instruction's own fault names the instruction's address, and is no fault of a fetch (R38, R235). -/
theorem isOwnFault_ia {i : Instr} {s : State} {f : Fault} (h : isOwnFault i s f) :
    f.ia = s.ia ∧ ∀ a, f ≠ .fetchOutOfRange a := by
  cases i with
  | call nnn | ret | drw x y n | ldBcd x | storeRegs x | loadRegs x =>
    subst h
    exact ⟨rfl, fun _ hf => Fault.noConfusion hf⟩
  | _ => exact h.elim

/-- The fault of a cycle is that of the fetch, or it comes after the fetch; either way it names the pc (R233). -/
theorem runCycle_fault {s : State} {f : Fault} (h : runCycle s = .fault f) :
    f.ia = s.pc ∧ (f = .fetchOutOfRange s.pc ∨ ∀ a, f ≠ .fetchOutOfRange a) := by
  rcases runCycle_cases s with ⟨-, e⟩ | ⟨-, -, e⟩ | ⟨-, i, -, e⟩
  · cases e.symm.trans h
    exact ⟨rfl, .inl rfl⟩
  · cases e.symm.trans h
    exact ⟨rfl, .inr fun _ hf => Fault.noConfusion hf⟩
  · have hown := (instructionsRaiseOnlyTheirOwnFault i s.afterFetch).2 f (e.symm.trans h)
    obtain ⟨hia, hne⟩ := isOwnFault_ia hown
    exact ⟨hia.trans (afterFetch_ia s), .inr hne⟩

/-- Settles O10: the fault is the one that the cycle raises, and only a fetch fault leaves the pc. -/
theorem faultsArePrecise : Obligations.FaultsArePrecise := by
  intro s t now rnd f hr h
  rw [cycle_running hr] at h
  cases hrun : runCycle { s with now := now, rnd := rnd } with
  | next u => rw [hrun] at h; cases h
  | refused r => rw [hrun] at h; cases h
  | fault g =>
    rw [hrun] at h
    cases h
    obtain ⟨hia, rfl | hne⟩ := runCycle_fault hrun
    · exact ⟨hia, by rw [if_pos rfl]; rfl⟩
    · exact ⟨hia, by rw [haltedBy_eq hne, if_neg (hne s.pc)]; rfl⟩

theorem afterKeyEvent_halted {s : State} {f : Fault} (h : s.run = .halted f) (k : Nat) (down : Bool) :
    s.afterKeyEvent (s.setKey k down) = s := by
  rcases setKey_cases s k down with ⟨-, hr, -⟩ | ⟨-, -, e⟩ | ⟨-, e⟩
  · rw [h] at hr; cases hr
  · rw [e]; rfl
  · rw [e]; rfl

/-- Settles O9: each operation tests RUN first. -/
theorem haltedIsTerminal : Obligations.HaltedIsTerminal := by
  intro s f h
  have hcycle (now : Nat) (rnd : Byte) : s.cycle now rnd = (s, .fault f) := by simp [State.cycle, h]
  have hrecord : s.faultRecord = some f := by simp [State.faultRecord, h]
  exact ⟨step_halted h, hcycle, fun now => timerCheck_halted h now,
    fun k => ⟨afterKeyEvent_halted h k true, afterKeyEvent_halted h k false⟩, h, hrecord, rfl, rfl⟩

end Sys2Proof.Machine

/-! PROOFS. The host's side (40_cycle_fsm.md R100, R104, R108; 45_keypad_timers.md R211 to R217): the timer check, the key
events, and what the waiting inputs do before a step. -/

namespace Sys2Proof.Machine

/-! ### The inputs of a cycle -/

/-- Settles O13: the two ways in which the list of inputs ends before a cycle. -/
theorem cycleInputsAreLatched : Obligations.CycleInputsAreLatched := by
  refine ⟨fun _ _ _ _ h => beginCycle_cycle h, fun s h =>
    ⟨s.now + Config.freeElapsed s.freeIdx, Nat.le_add_right _ _, ?_⟩⟩
  rw [beginCycle_nil h, State.freeCycleInputs, ← h]

/-- Settles O14: the host's frame, over the whole list of inputs. -/
theorem hostInputsReachOnlyKeypadAndTimers : Obligations.HostInputsReachOnlyKeypadAndTimers := by
  intro s
  exact hostFrame_beginCycle s

theorem timerCheck_key (s : State) (now : Nat) : (s.timerCheck now).key = s.key := by
  cases hr : s.run with
  | halted f => rw [timerCheck_halted hr]
  | running =>
    rw [timerCheck_running hr]
    simp only [State.tickDelay, State.tickSound]
    split <;> split <;> rfl

theorem takeInputs_key {l : List HostInput} (h : ∀ k, .keyPress k ∉ l ∧ .keyRelease k ∉ l) (s : State) :
    (takeInputs l s).key = s.key := by
  induction l generalizing s with
  | nil => rfl
  | cons x l ih =>
    have hl : ∀ k, .keyPress k ∉ l ∧ .keyRelease k ∉ l := fun k =>
      ⟨fun hm => (h k).1 (List.mem_cons_of_mem _ hm), fun hm => (h k).2 (List.mem_cons_of_mem _ hm)⟩
    cases x with
    | timerCheck now => exact (ih hl _).trans (timerCheck_key s now)
    | keyPress k => exact absurd (List.mem_cons_self ..) (h k).1
    | keyRelease k => exact absurd (List.mem_cons_self ..) (h k).2
    | cycle now rnd => rfl

/-- A step that answers a next state has executed an instruction after the waiting inputs and the fetch, and no
instruction writes the host's side. -/
theorem step_sameHostSide {s t : State} (h : step s = .next t) : SameHostSide s.beginCycle t := by
  obtain ⟨-, i, -, he⟩ := runCycle_next (step_next h).2
  exact (exec_frame he).host

/-- Settles O15: neither the waiting inputs nor the instruction writes KEY. -/
theorem keypadChangesOnlyByKeyEvents : Obligations.KeypadChangesOnlyByKeyEvents :=
  fun s _ h hno => (step_sameHostSide h).1.trans (takeInputs_key hno s)

theorem hostDuty_congr {s t : State} (hnow : t.now = s.now) (hin : t.inputs = s.inputs) : t.hostDuty = s.hostDuty := by
  rw [State.hostDuty, State.hostDuty, hnow, hin]

/-- Settles O16: taking the waiting inputs moves the clock forward, and the instruction leaves it. -/
theorem clockNeverGoesBack : Obligations.ClockNeverGoesBack := by
  intro s t hdelay hsound hduty h
  obtain ⟨-, hle, hbegun⟩ := takeInputs_clock ⟨hdelay, hsound⟩ hduty
  obtain ⟨-, -, -, hnow, -, hin, -⟩ := step_sameHostSide h
  exact ⟨hle.trans_eq hnow.symm, (hostDuty_congr hnow hin).trans hbegun⟩

/-! ### The timer check -/

theorem timerDue_iff {s : State} {value : Byte} {last now : Nat} :
    timerDue s value last now = true ↔ value ≠ 0 ∧ last + s.cfg.timerPeriod < now := by
  simp only [timerDue, Bool.and_eq_true, bne_iff_ne, decide_eq_true_eq]
  exact and_congr_right fun _ => by omega

theorem toNat_sub_one {b : Byte} (h : b ≠ 0) : (b - 1).toNat = b.toNat - 1 := by
  have h0 : b.toNat ≠ 0 := fun h0 => h (BitVec.eq_of_toNat_eq h0)
  have hlt := b.isLt
  have h1 : (1 : Byte).toNat = 1 := rfl
  rw [BitVec.toNat_sub, h1]
  omega

theorem toNat_ite_timerDue (s : State) (value : Byte) (last now : Nat) :
    (if timerDue s value last now then value - 1 else value).toNat =
      if value ≠ 0 ∧ last + s.cfg.timerPeriod < now then value.toNat - 1 else value.toNat := by
  by_cases h : timerDue s value last now = true
  · rw [if_pos h, if_pos (timerDue_iff.1 h), toNat_sub_one (timerDue_iff.1 h).1]
  · rw [if_neg h, if_neg fun hc => h (timerDue_iff.2 hc)]

/-- A check writes the timers, their readings and the latest reading. -/
theorem timerCheck_eq {s : State} (hr : s.run = .running) (now : Nat) :
    s.timerCheck now =
      { s with dt := (s.timerCheck now).dt, dtLast := (s.timerCheck now).dtLast, st := (s.timerCheck now).st,
               stLast := (s.timerCheck now).stLast, now := now } := by
  rw [timerCheck_running hr]
  simp only [State.tickDelay, State.tickSound]
  split <;> split <;> rfl

/-- Settles O17: each timer is tested by the strict comparison, and the frame of the check is read off its fields. -/
theorem timerCheckResult : Obligations.TimerCheckResult := by
  intro s now hr
  obtain ⟨hdt, hdtLast, hst, hstLast, -⟩ := timerCheck_fields hr now
  refine ⟨?_, ?_, ?_, ?_, timerCheck_eq hr now⟩
  · rw [hdt, toNat_ite_timerDue]
  · simp only [hdtLast, timerDue_iff]
  · rw [hst, toNat_ite_timerDue]
  · simp only [hstLast, timerDue_iff]

theorem timerCheck_dt_of_ne {s : State} {now : Nat} (hr : s.run = .running) (h : (s.timerCheck now).dt ≠ s.dt) :
    (s.timerCheck now).dtLast = now ∧ s.dtLast + s.cfg.timerPeriod < now := by
  obtain ⟨hdt, hdtLast, -⟩ := timerCheck_fields hr now
  by_cases hd : timerDue s s.dt s.dtLast now = true
  · exact ⟨hdtLast.trans (if_pos hd), (timerDue_iff.1 hd).2⟩
  · exact absurd (hdt.trans (if_neg hd)) h

theorem timerCheck_st_of_ne {s : State} {now : Nat} (hr : s.run = .running) (h : (s.timerCheck now).st ≠ s.st) :
    (s.timerCheck now).stLast = now ∧ s.stLast + s.cfg.timerPeriod < now := by
  obtain ⟨-, -, hst, hstLast, -⟩ := timerCheck_fields hr now
  by_cases hd : timerDue s s.st s.stLast now = true
  · exact ⟨hstLast.trans (if_pos hd), (timerDue_iff.1 hd).2⟩
  · exact absurd (hst.trans (if_neg hd)) h

/-- A timer at 0 is never due. -/
theorem not_timerDue_of_zero {s : State} {value : Byte} (h : value = 0) (last now : Nat) :
    timerDue s value last now ≠ true :=
  fun hd => (timerDue_iff.1 hd).1 h

/-- Settles O18: the first decrement sets the reading of its timer to its own time, and the second one needs more than a
period since that reading. -/
theorem decrementsAreMoreThanAPeriodApart : Obligations.DecrementsAreMoreThanAPeriodApart := by
  intro s n1 n2 hr
  have hf := hostFrame_timerCheck s n1
  have hr' : (s.timerCheck n1).run = .running := hf.run.trans hr
  obtain ⟨hdt, hdtLast, hst, hstLast, -⟩ := timerCheck_fields hr n1
  refine ⟨fun h1 h2 => ?_, fun h1 h2 => ?_, fun h0 => ?_, fun h0 => ?_⟩
  · have hfirst := (timerCheck_dt_of_ne hr h1).1
    have hsecond := (timerCheck_dt_of_ne hr' h2).2
    rw [hfirst, hf.cfg] at hsecond
    omega
  · have hfirst := (timerCheck_st_of_ne hr h1).1
    have hsecond := (timerCheck_st_of_ne hr' h2).2
    rw [hfirst, hf.cfg] at hsecond
    omega
  · have hno := not_timerDue_of_zero (s := s) h0 s.dtLast n1
    exact ⟨hdt.trans ((if_neg hno).trans h0), hdtLast.trans (if_neg hno)⟩
  · have hno := not_timerDue_of_zero (s := s) h0 s.stLast n1
    exact ⟨hst.trans ((if_neg hno).trans h0), hstLast.trans (if_neg hno)⟩

/-! ### Key events -/

/-- Settles O19: the three ways a key event can go. -/
theorem keyEventResult : Obligations.KeyEventResult := by
  refine ⟨fun s k down hr h => ?_, fun s k down h => ?_, fun s k => ⟨rfl, rfl⟩⟩
  · rcases setKey_cases s k down with ⟨_, -, e⟩ | ⟨-, ⟨f, hf⟩, -⟩ | ⟨hk, -⟩
    · exact e
    · rw [hr] at hf; cases hf
    · omega
  · rcases setKey_cases s k down with ⟨hk, -⟩ | ⟨hk, -⟩ | ⟨-, e⟩
    · omega
    · omega
    · rw [e]; exact ⟨rfl, rfl⟩

end Sys2Proof.Machine

/-! PROOFS. Construction and the invariant (10_state.md R41, 70_reset_and_hazards.md R250 to R253): what a constructed core
holds, and that the invariant holds of it and is kept by every step. -/

namespace Sys2Proof.Machine

/-! ### The constructed state -/

/-- Settles O22: the two tests that construction makes. -/
theorem loadErrors : Obligations.LoadErrors := by
  refine fun cfg t0 => ⟨rfl, fun image => ⟨fun h => if_pos h, fun h => ?_⟩⟩
  exact ⟨storeBytes 0x200 image (State.fresh cfg t0), if_neg (Nat.not_lt.2 h)⟩

/-- Row `r` of glyph `g` of the font (R56). -/
theorem blank_font (font : Font) (g : Fin 16) (r : Fin 5) :
    Memory.blank font (0x050 + 5 * g.val + r.val) = font[g][r] := by
  have hin : 0x050 ≤ 0x050 + 5 * g.val + r.val ∧ 0x050 + 5 * g.val + r.val < 0x0A0 := by omega
  have hg : (0x050 + 5 * g.val + r.val - 0x050) / 5 = g.val := by omega
  have hr : (0x050 + 5 * g.val + r.val - 0x050) % 5 = r.val := by omega
  simp only [Memory.blank, dif_pos hin, hg, hr]
  rfl

theorem blank_of_not_font {font : Font} {a : Nat} (h : ¬(0x050 ≤ a ∧ a ≤ 0x09F)) : Memory.blank font a = 0 :=
  dif_neg (by omega)

/-- Below the program a constructed core reads as the fresh one: the image is stored above. -/
theorem storeBytes_fresh_readByte {cfg : Config} {l : List Byte} {t0 : Nat} (hl : l.length ≤ 3584) {a : Nat}
    (ha : a < 0x200) : (storeBytes 0x200 l (State.fresh cfg t0)).readByte a = Memory.blank cfg.font a := by
  rw [storeBytes_readByte (fresh_memOk cfg t0) (by omega), dif_neg (by omega)]
  rfl

theorem fresh_reg (cfg : Config) (t0 : Nat) (r : Reg) : (State.fresh cfg t0).reg r = 0 := by
  simp [State.fresh, State.reg]

theorem fresh_cell (cfg : Config) (t0 : Nat) (x : Fin 64) (y : Fin 32) : (State.fresh cfg t0).cell x y = false := by
  simp [State.fresh, State.cell]

/-- Settles O20: construction stores the image into the fresh state's memory and nothing else, and it stores nothing
below 0x200. -/
theorem constructedState : Obligations.ConstructedState := by
  refine ⟨rfl, fun cfg image t0 s h => ?_⟩
  obtain ⟨l, -, hlen, rfl⟩ := construct_ok h
  have hread {a : Nat} (ha : a < 0x200) := storeBytes_fresh_readByte (cfg := cfg) (t0 := t0) hlen ha
  have hfont (g : Fin 16) (r : Fin 5) := (hread (a := 0x050 + 5 * g.val + r.val) (by omega)).trans (blank_font _ g r)
  have hzero (a : Nat) (ha : a < 0x200) (hno : ¬(0x050 ≤ a ∧ a ≤ 0x09F)) := (hread ha).trans (blank_of_not_font hno)
  rw [storeBytes_eq] at hfont hzero ⊢
  refine ⟨fresh_reg cfg t0, rfl, rfl, rfl, fun k => ?_, rfl, rfl, rfl, rfl, fun k => ?_, fresh_cell cfg t0, rfl, rfl,
    rfl, hfont, hzero⟩
  · simp [State.fresh]
  · simp [State.fresh]

/-! ### The invariant at the start -/

theorem fresh_inv {cfg : Config} (h : cfg.wf = true) (t0 : Nat) : (State.fresh cfg t0).Inv where
  mem := fresh_memOk cfg t0
  running := rfl
  pc := (by decide : (0x200 : Word).toNat ≤ 0x10FE)
  stack k := by simp [State.fresh]
  cfg := h
  delay := le_rfl
  sound := le_rfl
  duty := rfl

/-- Another canonical memory keeps the invariant. -/
theorem State.Inv.withMem {s : State} (h : s.Inv) {m : Memory} (hm : Memory.wf s.cfg.font m = true) :
    State.Inv { s with mem := m } :=
  ⟨hm, h.running, h.pc, h.stack, h.cfg, h.delay, h.sound, h.duty⟩

/-- Settles O23: the default configuration is a legal one. -/
theorem invariantHoldsAtReset : Obligations.InvariantHoldsAtReset :=
  fresh_inv (Config.wf_ofTimerHz (by decide)) 0

/-- Settles O24: construction stores the image into a fresh state, inside memory. -/
theorem invariantHoldsAfterConstruct : Obligations.InvariantHoldsAfterConstruct := by
  intro cfg image t0 s hcfg h
  obtain ⟨l, -, hlen, rfl⟩ := construct_ok h
  have hm := storeBytes_memOk (a := 0x200) (l := l) (fresh_memOk cfg t0) (by omega)
  rw [storeBytes_eq] at hm ⊢
  exact (fresh_inv hcfg t0).withMem hm

/-! ### Every instruction keeps memory canonical -/

theorem storeBcd_memOk {s : State} (hm : s.memOk) (h : s.i.toNat + 2 ≤ 0xFFF) (x : Reg) : (s.storeBcd x).memOk :=
  State.wf_writeByte (State.wf_writeByte (State.wf_writeByte hm (by omega) _) (by omega) _) h _

theorem bumpIndex_memOk {s : State} (hm : s.memOk) (x : Reg) : (s.bumpIndex x).memOk := by
  rw [State.memOk, State.bumpIndex_cfg, State.bumpIndex_mem]
  exact hm

theorem regsUpTo_le {base : Nat} {x : Reg} (h : base + x.val ≤ 0xFFF) : ∀ r ∈ regsUpTo x, base + r.val ≤ 0xFFF := by
  intro r hr
  have hrx : r.val ≤ x.val := mem_regsUpTo.1 hr
  omega

theorem exec_memOk {i : Instr} {s t : State} (h : exec i s = .next t) (hm : s.memOk) : t.memOk := by
  cases i with
  | ldBcd x =>
    obtain ⟨hle, ht⟩ := rangeCheck_next h
    cases ht
    exact storeBcd_memOk hm hle x
  | storeRegs x =>
    obtain ⟨hle, ht⟩ := rangeCheck_next h
    cases ht
    exact bumpIndex_memOk (storeEach_memOk hm (regsUpTo_le hle)) x
  | loadRegs x =>
    cases (rangeCheck_next h).2
    rw [loadEach_eq]
    exact bumpIndex_memOk (s := { s with v := (loadEach s.i.toNat (regsUpTo x) s).v }) hm x
  | call nnn =>
    obtain ⟨-, rfl⟩ := exec_call_next h
    exact hm
  | ret =>
    obtain ⟨_, -, rfl⟩ := exec_ret_next h
    exact hm
  | drw x y n =>
    obtain ⟨-, rfl⟩ := exec_drw_next h
    rw [State.drawn, (drawFrame_drawSprite _ _ _ s).1]
    exact hm
  | ldKey x =>
    cases hk : lowestKey s with
    | none => cases next_unique (exec_ldKey_of_none hk) h; exact hm
    | some k => cases next_unique (exec_ldKey_of_some hk) h; exact hm
  | seByte | sneByte | seReg | sneReg | skp | sknp =>
    cases h
    rw [State.memOk, State.skipIf_cfg, State.skipIf_mem]
    exact hm
  | cls | jp | ldByte | addByte | ldReg | orReg | andReg | xorReg | addReg | sub | shr | subn | shl | ldIndex | jpOffset
  | rnd | ldFromDelay | ldDelay | ldSound | addIndex | ldFont => cases h; exact hm

/-! ### Every instruction keeps the bounds of the pc and the stack -/

/-- An address of 12 bits plus a byte does not wrap. -/
theorem toNat_add_zext16 {nnn : Word} (h : nnn.toNat < 0x1000) (b : Byte) :
    (nnn + zext16 b).toNat = nnn.toNat + b.toNat := by
  have hb := b.isLt
  rw [BitVec.toNat_add, zext16, BitVec.toNat_setWidth]
  omega

theorem toNat_ia_add {s : State} (h : s.ia.toNat ≤ 0xFFE) :
    (s.ia + 2).toNat = s.ia.toNat + 2 ∧ (s.ia + 4).toNat = s.ia.toNat + 4 := by
  have h2 : (2 : Word).toNat = 2 := rfl
  have h4 : (4 : Word).toNat = 4 := rfl
  rw [BitVec.toNat_add, BitVec.toNat_add, h2, h4]
  omega

/-- R25: an instruction that was fetched from memory leaves the pc at 0x10FE or below. -/
theorem pcAfter_le {i : Instr} {s : State} (hwf : i.wf = true) (hia : s.ia.toNat ≤ 0xFFE)
    (hstack : ∀ k : Fin 16, s.stack[k].toNat ≤ 0x1000) : (pcAfter i s).toNat ≤ 0x10FE := by
  obtain ⟨h2, h4⟩ := toNat_ia_add hia
  have hsum {nnn : Word} (hn : fitsNNN nnn = true) (b : Byte) : (nnn + zext16 b).toNat ≤ 0x10FE := by
    have hlt : nnn.toNat < 0x1000 := of_decide_eq_true hn
    have hb := b.isLt
    rw [toNat_add_zext16 hlt]
    omega
  cases i with
  | jp nnn | call nnn =>
    have hlt : nnn.toNat < 0x1000 := of_decide_eq_true hwf
    simp only [pcAfter]
    omega
  | ret => exact (hstack ⟨s.sp.val - 1, by omega⟩).trans (by decide)
  | jpOffset nnn => rw [pcAfter_jpOffset]; exact hsum hwf _
  | seByte | sneByte | seReg | sneReg | skp | sknp | ldKey => simp only [pcAfter]; split <;> omega
  | _ => simp only [pcAfter]; omega

theorem exec_stack_le {i : Instr} {s t : State} (h : exec i s = .next t) (hpc : s.pc.toNat ≤ 0x1000)
    (hstack : ∀ k : Fin 16, s.stack[k].toNat ≤ 0x1000) (k : Fin 16) : t.stack[k].toNat ≤ 0x1000 := by
  cases hw : stackEntryWritten i s k with
  | false => rw [exec_stack h hw]; exact hstack k
  | true =>
    cases i with
    | call nnn =>
      obtain ⟨hsp, rfl⟩ := exec_call_next h
      have hk : s.sp.val = k.val := by simpa [stackEntryWritten, eq_comm] using hw
      have hpush : (s.stack.set s.sp.val s.pc hsp)[k] = s.pc := by simp [hk]
      exact (congrArg BitVec.toNat hpush).trans_le hpc
    | _ => cases hw

/-! ### Every instruction keeps the timers' readings behind the clock -/

theorem delay_notMem_partsWritten {i : Instr} (hd : ∀ x, i ≠ .ldDelay x) (s : State) :
    Part.delay ∉ partsWritten i s := by
  cases i with
  | ldDelay x => exact absurd rfl (hd x)
  | ldKey x | storeRegs x | loadRegs x => simp only [partsWritten]; split <;> simp
  | _ => simp [partsWritten]

theorem sound_notMem_partsWritten {i : Instr} (hs : ∀ x, i ≠ .ldSound x) (s : State) :
    Part.sound ∉ partsWritten i s := by
  cases i with
  | ldSound x => exact absurd rfl (hs x)
  | ldKey x | storeRegs x | loadRegs x => simp only [partsWritten]; split <;> simp
  | _ => simp [partsWritten]

theorem exec_clockOk {i : Instr} {s t : State} (h : exec i s = .next t) (hc : ClockOk s) : ClockOk t := by
  have hf := exec_frame h
  obtain ⟨-, -, -, hnow, -⟩ := hf.host
  constructor
  · by_cases hd : ∃ x, i = .ldDelay x
    · obtain ⟨x, rfl⟩ := hd
      cases h
      exact le_rfl
    · rw [(hf.delay (delay_notMem_partsWritten (not_exists.1 hd) s)).2, hnow]
      exact hc.delay
  · by_cases hs : ∃ x, i = .ldSound x
    · obtain ⟨x, rfl⟩ := hs
      cases h
      exact le_rfl
    · rw [(hf.sound (sound_notMem_partsWritten (not_exists.1 hs) s)).2, hnow]
      exact hc.sound

/-! ### The step -/

/-- A well-formed instruction, executed after its fetch from a state that meets the invariant, keeps it. -/
theorem exec_afterFetch_inv {i : Instr} {s t : State} (hs : s.Inv) (hp : s.pc.toNat ≤ 0xFFE) (hwf : i.wf = true)
    (h : exec i s.afterFetch = .next t) : t.Inv := by
  obtain ⟨-, hcfg, hrun, hnow, -, hin, -⟩ := (exec_frame h).host
  have hia : s.afterFetch.ia.toNat ≤ 0xFFE := by rw [afterFetch_ia]; exact hp
  have hpc : s.afterFetch.pc.toNat ≤ 0x1000 := by
    rw [← State.ia_add_two, (toNat_ia_add hia).1]
    omega
  have hclock : ClockOk t := exec_clockOk h ⟨hs.delay, hs.sound⟩
  exact {
    mem := exec_memOk h hs.mem
    running := hrun.trans hs.running
    pc := by rw [pcAfterExecute i _ t h]; exact pcAfter_le hwf hia hs.stack
    stack := exec_stack_le h hpc hs.stack
    cfg := (congrArg Config.wf hcfg).trans hs.cfg
    delay := hclock.delay
    sound := hclock.sound
    duty := (hostDuty_congr hnow hin).trans hs.duty }

/-- Settles O25: the waiting inputs keep the invariant, and a step that answers a next state has then executed a decoded,
hence well-formed, instruction. -/
theorem stepKeepsInvariant : Obligations.StepKeepsInvariant := by
  intro s t hs h
  obtain ⟨hp, i, hd, he⟩ := runCycle_next (step_next h).2
  exact exec_afterFetch_inv (beginCycle_inv hs) hp (encode_decodeWord hd).2 he

end Sys2Proof.Machine

/-! PROOFS. Control transfer (41_control_flow.md R129, R131): the return after a call, and the jump with an offset. -/

namespace Sys2Proof.Machine

/-- Settles O29: the call pushes its pc at SP, and the return pops the entry below the SP it finds. -/
theorem callThenReturn : Obligations.CallThenReturn := by
  intro nnn s t u h hsp hentry
  obtain ⟨hlt, rfl⟩ := exec_call_next h
  have hk : u.sp.val = (⟨s.sp.val, hlt⟩ : Fin 16).val + 1 := congrArg Fin.val hsp
  refine ⟨_, exec_ret_of_succ hk, ?_, Fin.ext rfl⟩
  exact (hentry ⟨s.sp.val, hlt⟩ rfl).trans (Vector.getElem_set_self hlt)

/-- Settles O33: the jump is one write of the pc, with the register that QUIRK_JUMP selects. -/
theorem jumpOffsetResult : Obligations.JumpOffsetResult := by
  intro nnn s
  refine ⟨s.setPc (nnn + zext16 (jumpBase nnn s)), rfl, fun hq => ?_, fun hq x hx => ?_, fun hwf => ?_,
    frame_setPc s _⟩
  · rw [State.setPc_pc, jumpBase_original hq, zext16]
  · have hreg : offsetReg nnn = x := Fin.ext ((offsetReg_val nnn).trans hx.symm)
    rw [State.setPc_pc, jumpBase_superchip hq, hreg, zext16]
  · have hlt : nnn.toNat < 0x1000 := of_decide_eq_true hwf
    have hb := (jumpBase nnn s).isLt
    rw [State.setPc_pc, toNat_add_zext16 hlt]
    omega

end Sys2Proof.Machine

/-! PROOFS. Register and ALU instructions (42_register_alu.md): the logic instructions and CXNN are one `setReg`, and those
with a flag are one `setResultAndFlag`, of which VF holds the flag. -/

namespace Sys2Proof.Machine

theorem reg_setResultAndFlag_VF (s : State) (x : Reg) (b f : Byte) : (s.setResultAndFlag x b f).reg VF = f := by
  rw [State.reg_setResultAndFlag, if_pos rfl]

theorem reg_setResultAndFlag_of_ne (s : State) {x : Reg} (h : x ≠ VF) (b f : Byte) :
    (s.setResultAndFlag x b f).reg x = b := by
  rw [State.reg_setResultAndFlag, if_neg h, if_pos rfl]

/-- Settles O35: the three operations act bit by bit. -/
theorem logicResult : Obligations.LogicResult := by
  intro x y s
  refine ⟨⟨_, rfl, frame_setReg s x _, fun k => ?_⟩, ⟨_, rfl, frame_setReg s x _, fun k => ?_⟩,
    ⟨_, rfl, frame_setReg s x _, fun k => ?_⟩⟩
  · rw [State.reg_setReg_self, BitVec.getLsbD_or]
  · rw [State.reg_setReg_self, BitVec.getLsbD_and]
  · rw [State.reg_setReg_self, BitVec.getLsbD_xor]

theorem carryFlag_toNat (a b : Byte) : (carryFlag a b).toNat = if 256 ≤ a.toNat + b.toNat then 1 else 0 := by
  simp [carryFlag, flagByte_toNat]

theorem noBorrowFlag_toNat (a b : Byte) : (noBorrowFlag a b).toNat = if b.toNat ≤ a.toNat then 1 else 0 := by
  simp [noBorrowFlag, flagByte_toNat]

theorem toNat_sub_byte (a b : Byte) : (a - b).toNat = (a.toNat + 256 - b.toNat) % 256 := by
  rw [BitVec.toNat_sub]
  omega

/-- Settles O36: a byte sum wraps at 256, and the carry is written last. -/
theorem addWithCarryResult : Obligations.AddWithCarryResult := by
  refine fun x y s => ⟨_, rfl, fun hx => ?_, ?_, frame_setResultAndFlag s x _ _⟩
  · rw [reg_setResultAndFlag_of_ne s hx, BitVec.toNat_add]
  · rw [reg_setResultAndFlag_VF, carryFlag_toNat]

/-- Settles O37: a byte difference wraps at 256, and the flag, which compares the operands, is written last. -/
theorem subtractResult : Obligations.SubtractResult := by
  refine fun x y s => ⟨⟨_, rfl, fun hx => ?_, ?_, frame_setResultAndFlag s x _ _⟩,
    ⟨_, rfl, fun hx => ?_, ?_, frame_setResultAndFlag s x _ _⟩⟩
  · rw [reg_setResultAndFlag_of_ne s hx, toNat_sub_byte]
  · rw [reg_setResultAndFlag_VF, noBorrowFlag_toNat]
  · rw [reg_setResultAndFlag_of_ne s hx, toNat_sub_byte]
  · rw [reg_setResultAndFlag_VF, noBorrowFlag_toNat]

/-- The shift source is V[Y] under `legacy` and V[X] under `modern` (R142). -/
theorem shiftSource_eq (x y : Reg) (s : State) :
    shiftSource x y s = if s.cfg.quirkShift = .legacy then s.reg y else s.reg x := by
  unfold shiftSource
  cases s.cfg.quirkShift <;> rfl

/-- Settles O38: a shift by one bit halves or doubles the source, and the bit shifted out is written last. -/
theorem shiftResult : Obligations.ShiftResult := by
  intro x y s src hsrc
  rw [← shiftSource_eq] at hsrc
  subst hsrc
  refine ⟨⟨_, rfl, fun hx => ?_, ?_, frame_setResultAndFlag s x _ _⟩,
    ⟨_, rfl, fun hx => ?_, ?_, frame_setResultAndFlag s x _ _⟩⟩
  · rw [reg_setResultAndFlag_of_ne s hx, BitVec.toNat_ushiftRight, Nat.shiftRight_one]
  · rw [reg_setResultAndFlag_VF, shiftRightFlag_toNat]
  · rw [reg_setResultAndFlag_of_ne s hx, BitVec.toNat_shiftLeft, Nat.shiftLeft_eq, Nat.pow_one]
  · rw [reg_setResultAndFlag_VF, shiftLeftFlag_toNat]

/-- Settles O39: CXNN is one `setReg` of X with the latched byte, masked. -/
theorem randomResult : Obligations.RandomResult := by
  rintro x nn r s rfl
  exact ⟨_, rfl, s.reg_setReg_self x _, frame_setReg s x _⟩

end Sys2Proof.Machine

/-! PROOFS. Index register and memory (43_index_memory.md): FX1E, and the transfers FX33, FX55 and FX65 behind their range
check. -/

namespace Sys2Proof.Machine

/-- Settles O41: 16-bit addition wraps. -/
theorem addIndexResult : Obligations.AddIndexResult := by
  refine fun x s => ⟨_, rfl, ?_, frame_setIndex s _⟩
  have hb := (s.reg x).isLt
  rw [State.setIndex_i, BitVec.toNat_add, zext16, BitVec.toNat_setWidth]
  omega

/-! ### FX33 -/

theorem readByte_storeBcd {s : State} (hm : s.memOk) (h : s.i.toNat + 2 ≤ 0xFFF) (x : Reg) :
    (s.storeBcd x).readByte s.i.toNat = bcdHundreds (s.reg x) ∧
      (s.storeBcd x).readByte (s.i.toNat + 1) = bcdTens (s.reg x) ∧
      (s.storeBcd x).readByte (s.i.toNat + 2) = bcdUnits (s.reg x) := by
  have hm1 := State.wf_writeByte hm (a := s.i.toNat) (by omega) (bcdHundreds (s.reg x))
  have hm2 := State.wf_writeByte hm1 (a := s.i.toNat + 1) (by omega) (bcdTens (s.reg x))
  simp [State.storeBcd, State.readByte_writeByte hm2, State.readByte_writeByte hm1, State.readByte_writeByte hm]

theorem bcd_toNat (b : Byte) :
    (bcdHundreds b).toNat = b.toNat / 100 ∧ (bcdTens b).toNat = b.toNat / 10 % 10 ∧
      (bcdUnits b).toNat = b.toNat % 10 := by
  have hb := b.isLt
  simp only [bcdHundreds, bcdTens, bcdUnits, BitVec.toNat_ofNat]
  omega

/-- Settles O42: in range the three digits are stored one after the other, and out of range nothing is. -/
theorem bcdResult : Obligations.BcdResult := by
  refine fun x s => ⟨fun hm h => ?_, fun h => rangeCheck_of_gt h _⟩
  obtain ⟨h0, h1, h2⟩ := readByte_storeBcd hm h x
  obtain ⟨hh, ht, hu⟩ := bcd_toNat (s.reg x)
  exact ⟨s.storeBcd x, rangeCheck_of_le h _, (congrArg _ h0).trans hh, (congrArg _ h1).trans ht,
    (congrArg _ h2).trans hu, sameMemoryBut_storeBcd s x, storeBcd_memOk hm h x, frame_storeBcd s x⟩

/-! ### FX55 and FX65 -/

theorem exec_storeRegs_of_le {x : Reg} {s : State} (h : s.i.toNat + x.val ≤ 0xFFF) :
    exec (.storeRegs x) s = .next ((storeEach s.i.toNat (regsUpTo x) s).bumpIndex x) :=
  rangeCheck_of_le h _

theorem exec_loadRegs_of_le {x : Reg} {s : State} (h : s.i.toNat + x.val ≤ 0xFFF) :
    exec (.loadRegs x) s = .next ((loadEach s.i.toNat (regsUpTo x) s).bumpIndex x) :=
  rangeCheck_of_le h _

/-- A stored register is the byte at its address. -/
theorem exec_storeRegs_readByte {x : Reg} {s t : State} (hm : s.memOk) (h : exec (.storeRegs x) s = .next t) {r : Reg}
    (hr : r ≤ x) : t.readByte (s.i.toNat + r.val) = s.reg r := by
  obtain ⟨hle, ht⟩ := rangeCheck_next h
  cases ht
  rw [State.readByte_bumpIndex]
  exact (storeEach_readByte hm (regsUpTo_le hle) _).1 r (mem_regsUpTo.2 hr) rfl

/-- A loaded register is the byte at its address, and the others are as before. -/
theorem exec_loadRegs_reg {x : Reg} {s t : State} (h : exec (.loadRegs x) s = .next t) (r : Reg) :
    t.reg r = if r ≤ x then s.readByte (s.i.toNat + r.val) else s.reg r := by
  cases (rangeCheck_next h).2
  rw [State.reg_bumpIndex, loadEach_reg]
  simp only [mem_regsUpTo]

/-- Settles O43: in range the registers are stored and I moves by the quirk; out of range nothing is written. -/
theorem storeRegistersResult : Obligations.StoreRegistersResult := by
  refine fun x s => ⟨fun hm hle => ?_, fun h => rangeCheck_of_gt h _⟩
  have h := exec_storeRegs_of_le hle
  refine ⟨_, h, fun r hr => exec_storeRegs_readByte hm h hr, exec_sameMemoryBut h, exec_memOk h hm, ?_, ?_⟩
  · rw [bumpIndex_i, storeEach_eq]
  · exact (frame_storeEach_bumpIndex s _ x).mono (by simp) (by split <;> simp)

/-- Settles O44: in range the registers are loaded and I moves by the quirk; out of range nothing is written. -/
theorem loadRegistersResult : Obligations.LoadRegistersResult := by
  refine fun x s => ⟨fun hle => ?_, fun h => rangeCheck_of_gt h _⟩
  have h := exec_loadRegs_of_le hle
  refine ⟨_, h, exec_loadRegs_reg h, ?_, ?_⟩
  · rw [bumpIndex_i, loadEach_eq]
  · exact (frame_loadEach_bumpIndex s _ x).mono (by simp) (by split <;> simp)

/-- Settles O45: the load reads the bytes that the store has written. -/
theorem storeThenLoadRestores : Obligations.StoreThenLoadRestores := by
  intro x s t u hm h hread hi hzero
  have hle : u.i.toNat + x.val ≤ 0xFFF := by rw [hi]; exact (rangeCheck_next h).1
  have hload := exec_loadRegs_of_le hle
  refine ⟨_, hload, fun r => (exec_loadRegs_reg hload r).trans ?_⟩
  by_cases hr : r ≤ x
  · rw [if_pos hr, if_pos hr, hi, hread, exec_storeRegs_readByte hm h hr]
  · rw [if_neg hr, if_neg hr, hzero]

/-- Settles O46: the pc is the address of the first register of the pair, which does not wrap. -/
theorem storedCodeIsFetched : Obligations.StoredCodeIsFetched := by
  intro x r r' s t hm h hr' hx
  have hle := (rangeCheck_next h).1
  have hval : r'.val ≤ x.val := hx
  have hpc : (s.i + BitVec.ofNat 16 r.val).toNat = s.i.toNat + r.val := by
    rw [BitVec.toNat_add, BitVec.toNat_ofNat]
    omega
  have hhigh := exec_storeRegs_readByte hm h (r := r) (Fin.le_def.2 (by omega))
  have hlow := exec_storeRegs_readByte hm h hx
  have hword : State.fetchedWord { t with pc := s.i + BitVec.ofNat 16 r.val } = wordOfBytes (s.reg r) (s.reg r') := by
    rw [← hhigh, ← hlow, hr', ← Nat.add_assoc, ← hpc]
    rfl
  have hfetch := fetch_of_le (s := { t with pc := s.i + BitVec.ofNat 16 r.val }) (by simp only [hpc]; omega)
  rw [hword] at hfetch
  exact ⟨_, hfetch⟩

end Sys2Proof.Machine

/-! PROOFS. The sprite instruction (44_display.md R192 to R194): DXYN flips the covered cells, its flag is the collision,
and it is its own inverse. -/

namespace Sys2Proof.Machine

/-- The drawn sprite as a set of flips of the state before, on a cleared flag. -/
theorem flipped_drawn (x y : Reg) (n : Nat) (s : State) :
    Flipped (fun cx cy => drawCovers x y n s cx cy = true) (s.setReg VF 0) (s.drawn x y n) :=
  flipped_drawSprite _ _ _ s

theorem cell_drawn (x y : Reg) (n : Nat) (s : State) (cx : Fin 64) (cy : Fin 32) :
    (s.drawn x y n).cell cx cy = (s.cell cx cy ^^ drawCovers x y n s cx cy) := by
  cases hc : drawCovers x y n s cx cy with
  | true => rw [Bool.xor_true]; exact (flipped_drawn x y n s).on cx cy hc
  | false => rw [Bool.xor_false]; exact cell_drawn_of_not_covered hc

/-- A cell that was lit is covered. -/
def State.collides (s : State) (x y : Reg) (n : Nat) : Prop :=
  ∃ cx cy, drawCovers x y n s cx cy = true ∧ s.cell cx cy = true

theorem reg_VF_drawn_of_collides {x y : Reg} {n : Nat} {s : State} (h : s.collides x y n) :
    (s.drawn x y n).reg VF = 1 :=
  (flipped_drawn x y n s).hit h

theorem reg_VF_drawn_of_not_collides {x y : Reg} {n : Nat} {s : State} (h : ¬s.collides x y n) :
    (s.drawn x y n).reg VF = 0 :=
  ((flipped_drawn x y n s).miss h).trans (s.reg_setReg_self VF 0)

theorem reg_VF_drawn_eq_one {x y : Reg} {n : Nat} {s : State} :
    (s.drawn x y n).reg VF = 1 ↔ s.collides x y n := by
  refine ⟨fun h => by_contra fun hno => ?_, reg_VF_drawn_of_collides⟩
  rw [reg_VF_drawn_of_not_collides hno] at h
  exact absurd h (by decide)

/-- Settles O48: in range, DXYN answers the drawn sprite, whose flips are the covered cells. -/
theorem drawFlipsCoveredCells : Obligations.DrawFlipsCoveredCells :=
  fun x y n s h => ⟨s.drawn x y n, exec_drw_of_inRange h, cell_drawn x y n s, frame_drawSprite _ _ _ s⟩

/-- Settles O49: the flag was cleared before the draw, and a flip of a lit cell sets it. -/
theorem drawSetsCollisionFlag : Obligations.DrawSetsCollisionFlag := by
  intro x y n s t h
  obtain ⟨-, rfl⟩ := exec_drw_next h
  exact ⟨reg_VF_drawn_of_collides, reg_VF_drawn_of_not_collides⟩

/-- Settles O50: the range check covers exactly the drawn rows. -/
theorem drawFaultsOutOfRange : Obligations.DrawFaultsOutOfRange :=
  fun _ _ _ _ h => exec_drw_of_not_inRange h

/-- From the same start the same sprite is drawn, since drawing leaves memory and I. -/
theorem drawCovers_drawn {x y : Reg} {n : Nat} {s : State} (hx : spriteColumn x (s.drawn x y n) = spriteColumn x s)
    (hy : spriteRow y (s.drawn x y n) = spriteRow y s) (cx : Fin 64) (cy : Fin 32) :
    drawCovers x y n (s.drawn x y n) cx cy = drawCovers x y n s cx cy := by
  have hf : DrawFrame s (s.drawn x y n) := drawFrame_drawSprite _ _ _ s
  have hn : spriteRows y n (s.drawn x y n) = spriteRows y n s := by rw [spriteRows, hy]; rfl
  rw [drawCovers, hx, hy, hn, spriteCovers, hf.i, hf.readByte]
  rfl

/-- Settles O51: the second draw flips the same cells back, and a covered cell is lit after the first draw exactly when it
was clear before. -/
theorem drawTwiceRestores : Obligations.DrawTwiceRestores := by
  intro x y n s t h hx hy
  obtain ⟨hr, rfl⟩ := exec_drw_next h
  have hf : DrawFrame s (s.drawn x y n) := drawFrame_drawSprite _ _ _ s
  have hcov := drawCovers_drawn hx hy
  have hr' : drawInRange y n (s.drawn x y n) := by
    simpa only [drawInRange, spriteRows, hy, hf.i] using hr
  refine ⟨_, exec_drw_of_inRange hr', fun cx cy => ?_, ?_⟩
  · rw [cell_drawn, cell_drawn, hcov, Bool.xor_assoc, Bool.xor_self, Bool.xor_false]
  · rw [reg_VF_drawn_eq_one, State.collides]
    refine exists₂_congr fun cx cy => ?_
    rw [hcov, cell_drawn]
    refine and_congr_right fun hc => ?_
    simp [hc]

end Sys2Proof.Machine

/-! PROOFS. Keypad and timers (45_keypad_timers.md R203, R205, R206): FX0A by its lowest pressed key, and the writes of
the timers. -/

namespace Sys2Proof.Machine

/-- Settles O52: the two answers of FX0A, by whether a key is pressed. -/
theorem keyWaitResult : Obligations.KeyWaitResult := by
  refine fun x s => ⟨fun h => ?_, fun k hk hlow => ?_⟩
  · exact ⟨_, exec_ldKey_of_none (lowestKey_eq_none.2 h), rfl, frame_setPc s _⟩
  · refine ⟨_, exec_ldKey_of_some (lowestKey_eq_some hk hlow), ?_, frame_setReg s x _⟩
    rw [State.reg_setReg_self, BitVec.toNat_ofNat]
    omega

/-- Settles O54: FX15 and FX18 are one `setDelay` and one `setSound`, which take the latest reading. -/
theorem setTimerResult : Obligations.SetTimerResult :=
  fun x s => ⟨⟨s.setDelay (s.reg x), rfl, rfl, rfl, frame_setDelay s _⟩,
    ⟨s.setSound (s.reg x), rfl, rfl, rfl, frame_setSound s _⟩⟩

end Sys2Proof.Machine

/-! PROOFS. The construction arguments (00_scope.md R7, R9): the default period is the exact one to less than a unit. -/

namespace Sys2Proof

/-- The quotient, rounded either way, that a period of `n / d` units has. -/
def Config.roundedQuotient (n d : Nat) (up : Bool) : Nat := if up then (n + d - 1) / d else n / d

theorem Config.periodOf_eq (units hz : Rate) (up : Bool) :
    Config.periodOf units hz up = max 1 (Config.roundedQuotient (units.num * hz.den) (units.den * hz.num) up) := rfl

theorem Config.one_le_roundedQuotient {n d : Nat} (hd : 0 < d) (h : d ≤ n) (up : Bool) :
    1 ≤ Config.roundedQuotient n d up := by
  unfold Config.roundedQuotient
  split
  · exact Nat.div_pos (by omega) hd
  · exact Nat.div_pos h hd

theorem Config.roundedQuotient_le_one {n d : Nat} (h : n < d) (up : Bool) : Config.roundedQuotient n d up ≤ 1 := by
  unfold Config.roundedQuotient
  split
  · exact Nat.le_of_lt_succ (Nat.div_lt_of_lt_mul (by omega))
  · exact (Nat.div_eq_of_lt h).trans_le (by decide)

/-- Settles O60: the free unit is the model's own; a quotient of at least one unit is rounded to less than one unit from
the exact one, and a smaller one is raised to 1. -/
theorem defaultParameters : Obligations.DefaultParameters := by
  refine ⟨⟨rfl, rfl, rfl, rfl, rfl, rfl, Config.wf_ofTimerHz (by decide)⟩, Config.openUnitsPerSecond.ofFree,
    Rate.positive_ofFree _, fun hz hpos => ⟨rfl, Config.wf_ofTimerHz hpos, fun h => ?_, fun h => ?_⟩⟩
  · have hd : 0 < Config.openUnitsPerSecond.ofFree.den * hz.num :=
      Nat.mul_pos (Nat.succ_pos _) (Rate.positive_iff.1 hpos).1
    have hperiod : (Config.ofTimerHz hz).timerPeriod = _ :=
      (Config.periodOf_eq _ _ _).trans (Nat.max_eq_right (Config.one_le_roundedQuotient hd h Config.openRoundsUp))
    rw [hperiod]
    exact Config.rounded_near hd Config.openRoundsUp
  · exact (Config.periodOf_eq _ _ _).trans (Nat.max_eq_left (Config.roundedQuotient_le_one h Config.openRoundsUp))

end Sys2Proof
